-- ==== Sys2Proof/Word.lean ====
section
/-! DEFINITION. The plain words of the decompressor: a byte, a 32-bit register value, and the colour tuples of
spec/00_scope.md section 8. -/

namespace Sys2Proof

/-- A byte, `u8` (spec/00_scope.md section 8). -/
abbrev Byte := BitVec 8

/-- The value of a host register, 32 bits (spec/10_state.md R11). -/
abbrev Word := BitVec 32

/-- An RGB565 endpoint as it stands in a record, `u16` (spec/30_encoding.md R71). -/
abbrev Colour565 := BitVec 16

/-- An `RGB` value (spec/00_scope.md section 8). -/
structure RGB where
  r : Byte
  g : Byte
  b : Byte
deriving DecidableEq, Repr

/-- An `RGBA` value: one texel or pixel (spec/00_scope.md section 8, spec/20_memory.md R43). -/
structure RGBA where
  r : Byte
  g : Byte
  b : Byte
  a : Byte
deriving DecidableEq, Repr

end Sys2Proof
end

