-- ==== Sys2Proof/Config.lean ====
section
/-! DEFINITION. The parameters of spec/00_scope.md R6 and the free values: constants with no body, for what the spec
leaves unspecified while the machine goes on. -/

namespace Sys2Proof

/-- Format tag numbers (spec/00_scope.md R6; the spec's decision D1). -/
def Config.tagBC1 : Word := 1
def Config.tagBC2 : Word := 2
def Config.tagBC3 : Word := 3

/-- Register numbers of the host register file (spec/10_state.md R11; the spec's decision D2). -/
def Config.regCtrl : Nat := 0
def Config.regStatus : Nat := 1
def Config.regErr : Nat := 2
def Config.regFormat : Nat := 3
def Config.regWidth : Nat := 4
def Config.regHeight : Nat := 5
def Config.regLen : Nat := 6

/-- How many registers there are, and how many bytes each takes: "All registers are 32 bits wide"
(spec/10_state.md R11). -/
def Config.regCount : Nat := 7
def Config.regBytes : Nat := 4

/-- What a byte of `IN` or `OUT` that nothing has written reads as. The spec leaves it unspecified
(spec/10_state.md R27, U4). DESIGN CHOICE, unsafe: notes/assumptions/6.md. -/
def Config.unwritten : Byte := 0

/-- FREE VALUE: a run-state register after an error (spec/60_exceptions.md R215: `NBX`, `NBY`, `BSZ`, `CUR`, `BX`, `BY`
are unspecified). The argument is a fresh number of State's counter. Safe: notes/assumptions/7.md. -/
opaque Config.freeRun : Nat → BitVec 32

/-- FREE VALUE: which of the two values a byte of `OUT` has after a reset during BUSY, true for the value from before
the run (spec/70_reset_and_hazards.md R241, U8). Arguments: a fresh number and the byte's offset.
Safe: notes/assumptions/8.md. -/
opaque Config.freeReset : Nat → Nat → Bool

/-- FREE VALUE: which of the two values a read of `OUT` returns before the run was seen to be DONE, true for the value
from before the run (spec/20_memory.md R56, U7). Arguments: a fresh number and the byte's offset.
Safe: notes/assumptions/9.md. -/
opaque Config.freeView : Nat → Nat → Bool

end Sys2Proof
end

