-- ==== Sys2Proof/Syntax.lean ====
section
/-! DEFINITION. Format tags, decoding contexts and the instructions: one constructor of `Instr` per row of
spec/opcode_table.json. -/

namespace Sys2Proof

/-- A format tag as the closed type spec/10_state.md R17 asks for; the numbers matter at the register only.
`other n` is any value that is not a format. -/
inductive Format where
  | bc1
  | bc2
  | bc3
  | other (n : Word)
deriving DecidableEq, Repr

/-- What selects how bits are read as an instruction (spec/30_encoding.md R79: no record and no code carries opcode
bits of its own). -/
inductive Ctx where
  /-- a value written to register 0, `CTRL` (spec/10_state.md R13) -/
  | ctrl
  /-- a record of a run whose latched format is `f` (R79) -/
  | record (f : Format)
  /-- a colour code under latched format `f`; `four` is the predicate `C0 > C1` (spec/10_state.md R24) -/
  | colour (f : Format) (four : Bool)
  /-- an alpha nibble or alpha code under latched format `f`; `grad6` is the predicate `A0 > A1` (R24) -/
  | alpha (f : Format) (grad6 : Bool)
deriving DecidableEq, Repr

/-- The instructions. Every field takes every value of its width (spec/30_encoding.md R81). -/
inductive Instr where
  /-- `START`, the host command (spec/44_image_decode.md R184) -/
  | start
  /-- `BLK.BC1` (spec/41_bc1_block.md R120) -/
  | blkBC1 (c0 c1 : Colour565) (idx : BitVec 32)
  /-- `BLK.BC2` (spec/42_bc2_block.md R140) -/
  | blkBC2 (aexp : BitVec 64) (c0 c1 : Colour565) (idx : BitVec 32)
  /-- `BLK.BC3` (spec/43_bc3_block.md R160) -/
  | blkBC3 (a0 a1 : Byte) (aidx : BitVec 48) (c0 c1 : Colour565) (idx : BitVec 32)
  /-- `CSEL4.0` to `CSEL4.3`: a colour code in four-colour mode (spec/40_endpoint_palette.md R105) -/
  | csel4_0
  | csel4_1
  | csel4_2
  | csel4_3
  /-- `CSEL3.0` to `CSEL3.3`: a colour code in three-colour mode (spec/40_endpoint_palette.md R106) -/
  | csel3_0
  | csel3_1
  | csel3_2
  | csel3_3
  /-- `AEXP`: an alpha nibble of BC2 (spec/42_bc2_block.md R142) -/
  | aexp (n : BitVec 4)
  /-- `AGRAD6.0` to `AGRAD6.7`: an alpha code in grad6 mode (spec/43_bc3_block.md R162) -/
  | agrad6_0
  | agrad6_1
  | agrad6_2
  | agrad6_3
  | agrad6_4
  | agrad6_5
  | agrad6_6
  | agrad6_7
  /-- `AGRAD4.0` to `AGRAD4.7`: an alpha code in grad4 mode (spec/43_bc3_block.md R163) -/
  | agrad4_0
  | agrad4_1
  | agrad4_2
  | agrad4_3
  | agrad4_4
  | agrad4_5
  | agrad4_6
  | agrad4_7
deriving DecidableEq, Repr

end Sys2Proof
end

