-- ==== Sys2Proof/Machine/Flags.lean ====
section
/-! DEFINITION. The two predicates of spec/10_state.md R24. The hardware stores no flag: each is computed from a
record's own fields and used in that block only. -/

namespace Sys2Proof.Machine

/-- `four = (C0 > C1)`, unsigned on the raw endpoints (spec/41_bc1_block.md R121). -/
def fourColour (c0 c1 : Colour565) : Bool := decide (c1.toNat < c0.toNat)

/-- `grad6 = (A0 > A1)`, unsigned (spec/43_bc3_block.md R162, R163). -/
def gradSix (a0 a1 : Byte) : Bool := decide (a1.toNat < a0.toNat)

end Sys2Proof.Machine
end

