-- ==== Sys2Proof/Machine/Operands.lean ====
section
/-! DEFINITION. The operand forms: the per-texel codes of a record and the channel fields of an endpoint
(spec/30_encoding.md R75 to R78). Texel `i = 4*row + col`. -/

namespace Sys2Proof.Machine

/-- `cc(i)`, the 2-bit colour code of texel `i` (spec/30_encoding.md R76). -/
def colourCode (idx : BitVec 32) (i : Nat) : BitVec 2 := BitVec.ofNat 2 (idx.toNat >>> (2 * i))

/-- `an(i)`, the 4-bit alpha nibble of texel `i` (spec/30_encoding.md R77). -/
def alphaNibble (aexp : BitVec 64) (i : Nat) : BitVec 4 := BitVec.ofNat 4 (aexp.toNat >>> (4 * i))

/-- `ac(i)`, the 3-bit alpha code of texel `i` (spec/30_encoding.md R78; the spec's own reading, D19).
DEDUCED, unsafe: notes/assumptions/14.md. -/
def alphaCode (aidx : BitVec 48) (i : Nat) : BitVec 3 := BitVec.ofNat 3 (aidx.toNat >>> (3 * i))

/-- `R5 = c[15:11]` (spec/30_encoding.md R75). PRESUMED, unsafe: notes/assumptions/13.md. -/
def red5 (c : Colour565) : BitVec 5 := BitVec.ofNat 5 (c.toNat >>> 11)

/-- `G6 = c[10:5]` (spec/30_encoding.md R75). -/
def green6 (c : Colour565) : BitVec 6 := BitVec.ofNat 6 (c.toNat >>> 5)

/-- `B5 = c[4:0]` (spec/30_encoding.md R75). PRESUMED, unsafe: notes/assumptions/13.md. -/
def blue5 (c : Colour565) : BitVec 5 := BitVec.ofNat 5 c.toNat

end Sys2Proof.Machine
end

