-- ==== Sys2Proof/WellFormed.lean ====
section
/-! DEFINITION. Well-formedness: an instruction is well formed IN A CONTEXT when it is one that the context selects,
which is the "condition" and "selector" column of spec/opcode_table.json. Operand values need no check: their types
have exactly the spec's widths and every value of every field is legal (spec/30_encoding.md R81). -/

namespace Sys2Proof

/-- Is `i` an instruction that bits read in the context `c` can be (spec/30_encoding.md R79)? -/
def Instr.wellFormedIn (c : Ctx) (i : Instr) : Bool :=
  match i with
  | .start => decide (c = .ctrl)
  | .blkBC1 .. => decide (c = .record .bc1)
  | .blkBC2 .. => decide (c = .record .bc2)
  | .blkBC3 .. => decide (c = .record .bc3)
  | .csel4_0 | .csel4_1 | .csel4_2 | .csel4_3 =>
    match c with
    | .colour .bc1 four => four
    | .colour .bc2 _ => true
    | .colour .bc3 _ => true
    | _ => false
  | .csel3_0 | .csel3_1 | .csel3_2 | .csel3_3 =>
    match c with
    | .colour .bc1 four => !four
    | _ => false
  | .aexp _ =>
    match c with
    | .alpha .bc2 _ => true
    | _ => false
  | .agrad6_0 | .agrad6_1 | .agrad6_2 | .agrad6_3 | .agrad6_4 | .agrad6_5 | .agrad6_6 | .agrad6_7 =>
    match c with
    | .alpha .bc3 grad6 => grad6
    | _ => false
  | .agrad4_0 | .agrad4_1 | .agrad4_2 | .agrad4_3 | .agrad4_4 | .agrad4_5 | .agrad4_6 | .agrad4_7 =>
    match c with
    | .alpha .bc3 grad6 => !grad6
    | _ => false

end Sys2Proof
end

