-- ==== Sys2Proof/Decode.lean ====
section
/-! DEFINITION. The decoder, total on any bytes in any context and rejecting by name; after it the encoder, written from
the same tables (spec/30_encoding.md R70 to R79). -/

namespace Sys2Proof

/-- Why bits are no instruction. -/
inductive DecodeError where
  /-- a value written to `CTRL` whose bit 0 is 0 (spec/10_state.md R13) -/
  | notStart
  /-- the format is none of BC1, BC2, BC3 (spec/30_encoding.md R80) -/
  | notAFormat
  /-- fewer bytes than the context's instruction has (R82) -/
  | tooShort
  /-- a format without alpha codes, or bits above the code's width (R76 to R79) -/
  | noSuchCode
deriving DecidableEq, Repr

/-- The little-endian value of bytes at ascending offsets (spec/20_memory.md R42). -/
def leNat : List Byte → Nat
  | [] => 0
  | b :: bs => b.toNat + 256 * leNat bs

/-- The `n` bytes of a number, the least significant first (spec/20_memory.md R42). -/
def leBytes : Nat → Nat → List Byte
  | 0, _ => []
  | n + 1, v => BitVec.ofNat 8 v :: leBytes n (v / 256)

/-- The field of `n` bits whose lowest bit is bit `lo` of `v` (spec/00_scope.md section 8, `v[hi:lo]`). -/
def bitField (v lo n : Nat) : BitVec n := BitVec.ofNat n (v >>> lo)

/-- The format tag of a register value (spec/10_state.md R17). -/
def Format.ofTag (t : Word) : Format :=
  if t = Config.tagBC1 then .bc1
  else if t = Config.tagBC2 then .bc2
  else if t = Config.tagBC3 then .bc3
  else .other t

/-- `BS(f)`, the record length in bytes; none where the tag is no format (spec/44_image_decode.md R182, R185). -/
def Format.size? (f : Format) : Option Nat :=
  match f with
  | .bc1 => some 8
  | .bc2 => some 16
  | .bc3 => some 16
  | .other _ => none

/-- A BC1 record as its 64-bit value (spec/30_encoding.md R72). -/
def decodeBC1 (rec : Nat) : Instr :=
  .blkBC1 (bitField rec 0 16) (bitField rec 16 16) (bitField rec 32 32)

/-- A BC2 record as its 128-bit value (spec/30_encoding.md R73). -/
def decodeBC2 (rec : Nat) : Instr :=
  .blkBC2 (bitField rec 0 64) (bitField rec 64 16) (bitField rec 80 16) (bitField rec 96 32)

/-- A BC3 record as its 128-bit value (spec/30_encoding.md R74). -/
def decodeBC3 (rec : Nat) : Instr :=
  .blkBC3 (bitField rec 0 8) (bitField rec 8 8) (bitField rec 16 48)
    (bitField rec 64 16) (bitField rec 80 16) (bitField rec 96 32)

/-- The four-colour entry a colour code selects (spec/30_encoding.md R79). -/
def csel4Of (cc : Nat) : Option Instr :=
  match cc with
  | 0 => some .csel4_0
  | 1 => some .csel4_1
  | 2 => some .csel4_2
  | 3 => some .csel4_3
  | _ => none

/-- The three-colour entry a colour code selects (spec/30_encoding.md R79). -/
def csel3Of (cc : Nat) : Option Instr :=
  match cc with
  | 0 => some .csel3_0
  | 1 => some .csel3_1
  | 2 => some .csel3_2
  | 3 => some .csel3_3
  | _ => none

/-- The grad6 entry an alpha code selects (spec/30_encoding.md R79). -/
def agrad6Of (ac : Nat) : Option Instr :=
  match ac with
  | 0 => some .agrad6_0
  | 1 => some .agrad6_1
  | 2 => some .agrad6_2
  | 3 => some .agrad6_3
  | 4 => some .agrad6_4
  | 5 => some .agrad6_5
  | 6 => some .agrad6_6
  | 7 => some .agrad6_7
  | _ => none

/-- The grad4 entry an alpha code selects (spec/30_encoding.md R79). -/
def agrad4Of (ac : Nat) : Option Instr :=
  match ac with
  | 0 => some .agrad4_0
  | 1 => some .agrad4_1
  | 2 => some .agrad4_2
  | 3 => some .agrad4_3
  | 4 => some .agrad4_4
  | 5 => some .agrad4_5
  | 6 => some .agrad4_6
  | 7 => some .agrad4_7
  | _ => none

/-- A colour code (spec/30_encoding.md R79): BC1 takes its mode from `C0 > C1`, BC2 and BC3 are always four-colour. -/
def decodeColour (f : Format) (four : Bool) (cc : Nat) : Except DecodeError Instr :=
  match f with
  | .bc1 =>
    match if four then csel4Of cc else csel3Of cc with
    | some i => .ok i
    | none => .error .noSuchCode
  | .bc2 | .bc3 =>
    match csel4Of cc with
    | some i => .ok i
    | none => .error .noSuchCode
  | .other _ => .error .notAFormat

/-- An alpha nibble of BC2 or an alpha code of BC3 (spec/30_encoding.md R79); BC1 has none (spec/41_bc1_block.md R122). -/
def decodeAlpha (f : Format) (grad6 : Bool) (code : Nat) : Except DecodeError Instr :=
  match f with
  | .bc1 => .error .noSuchCode
  | .bc2 => if code < 16 then .ok (.aexp (BitVec.ofNat 4 code)) else .error .noSuchCode
  | .bc3 =>
    match if grad6 then agrad6Of code else agrad4Of code with
    | some i => .ok i
    | none => .error .noSuchCode
  | .other _ => .error .notAFormat

/-- The operation a value written to `CTRL` is: `START` when bit 0 is 1, bits 31:1 ignored (spec/10_state.md R13). -/
def decodeCtrl (v : Nat) : Except DecodeError Instr :=
  if v % 2 = 1 then .ok .start else .error .notStart

/-- The operation of a record's little-endian value under a format (spec/30_encoding.md R79). -/
def decodeRecord (f : Format) (rec : Nat) : Except DecodeError Instr :=
  match f with
  | .bc1 => .ok (decodeBC1 rec)
  | .bc2 => .ok (decodeBC2 rec)
  | .bc3 => .ok (decodeBC3 rec)
  | .other _ => .error .notAFormat

/-- How many bytes an instruction of this context takes; a selector code stands alone in the low bits of one byte. -/
def Ctx.size (c : Ctx) : Nat :=
  match c with
  | .ctrl => 4
  | .record f => f.size?.getD 0
  | .colour .. => 1
  | .alpha .. => 1

/-- The operation of a little-endian value in a context. -/
def decodeValue (c : Ctx) (v : Nat) : Except DecodeError Instr :=
  match c with
  | .ctrl => decodeCtrl v
  | .record f => decodeRecord f v
  | .colour f four => decodeColour f four v
  | .alpha f grad6 => decodeAlpha f grad6 v

/-- THE DECODER: the first instruction of the bytes in the context, and the bytes after it. -/
def decode (c : Ctx) (bytes : List Byte) : Except DecodeError (Instr × List Byte) :=
  if bytes.length < c.size then .error .tooShort
  else
    match decodeValue c (leNat (bytes.take c.size)) with
    | .ok i => .ok (i, bytes.drop c.size)
    | .error e => .error e

/-- A colour sub-block as its 64-bit value (spec/30_encoding.md R71). -/
def colourValue (c0 c1 : Colour565) (idx : BitVec 32) : Nat :=
  c0.toNat + c1.toNat * 2 ^ 16 + idx.toNat * 2 ^ 32

/-- THE ENCODER: the bytes of an instruction, from the tables of spec/30_encoding.md R71 to R79. -/
def encode (i : Instr) : List Byte :=
  match i with
  | .start => leBytes 4 1
  | .blkBC1 c0 c1 idx => leBytes 8 (colourValue c0 c1 idx)
  | .blkBC2 aexp c0 c1 idx => leBytes 16 (aexp.toNat + colourValue c0 c1 idx * 2 ^ 64)
  | .blkBC3 a0 a1 aidx c0 c1 idx =>
    leBytes 16 (a0.toNat + a1.toNat * 2 ^ 8 + aidx.toNat * 2 ^ 16 + colourValue c0 c1 idx * 2 ^ 64)
  | .csel4_0 => leBytes 1 0
  | .csel4_1 => leBytes 1 1
  | .csel4_2 => leBytes 1 2
  | .csel4_3 => leBytes 1 3
  | .csel3_0 => leBytes 1 0
  | .csel3_1 => leBytes 1 1
  | .csel3_2 => leBytes 1 2
  | .csel3_3 => leBytes 1 3
  | .aexp n => leBytes 1 n.toNat
  | .agrad6_0 => leBytes 1 0
  | .agrad6_1 => leBytes 1 1
  | .agrad6_2 => leBytes 1 2
  | .agrad6_3 => leBytes 1 3
  | .agrad6_4 => leBytes 1 4
  | .agrad6_5 => leBytes 1 5
  | .agrad6_6 => leBytes 1 6
  | .agrad6_7 => leBytes 1 7
  | .agrad4_0 => leBytes 1 0
  | .agrad4_1 => leBytes 1 1
  | .agrad4_2 => leBytes 1 2
  | .agrad4_3 => leBytes 1 3
  | .agrad4_4 => leBytes 1 4
  | .agrad4_5 => leBytes 1 5
  | .agrad4_6 => leBytes 1 6
  | .agrad4_7 => leBytes 1 7

/-- The context in which a bare table word is read. A word alone does not say which row it is (a record has no opcode
bits; a code's row depends on the format and on a comparison), so its width, and for a byte its value, picks one of the
rows that fit. DESIGN CHOICE, safe: notes/assumptions/4.md. -/
def ctxOfTable (nbits w : Nat) : Option Ctx :=
  if nbits = 32 then some .ctrl
  else if nbits = 64 then some (.record .bc1)
  else if nbits = 128 then some (.record .bc2)
  else if nbits = 2 then some (.colour .bc1 true)
  else if nbits = 3 then some (.alpha .bc3 true)
  else if nbits = 4 then some (.alpha .bc2 true)
  else if nbits = 8 then
    if w < 4 then some (.colour .bc1 true)
    else if w < 8 then some (.alpha .bc3 true)
    else some (.alpha .bc2 true)
  else none

/-- What the decoder reads from an instruction whose bits are `w`, bit 0 the lowest bit of the first byte. -/
def decodeTableWord (nbits w : Nat) : Option Instr :=
  match ctxOfTable nbits w with
  | none => none
  | some c =>
    match decode c (leBytes c.size w) with
    | .ok (i, _) => some i
    | .error _ => none

end Sys2Proof
end

