-- ==== Sys2Proof/Machine/State.lean ====
section
/-! DEFINITION. The state of the machine, as plain data, and its value after reset (spec/10_state.md). -/

namespace Sys2Proof.Machine

/-- `STATUS.STATE` (spec/10_state.md R15). -/
inductive Status where
  | idle
  | busy
  | done
  | error
deriving DecidableEq, Repr

/-- The three errors (spec/60_exceptions.md R210). -/
inductive Err where
  | unexpectedEndOfData
  | unsupportedFormat
  | invalidDimensions
deriving DecidableEq, Repr

/-- The host register file (spec/10_state.md R11). `CTRL` stores nothing (R13) and so has no field. -/
structure HostRegs where
  status : Status
  /-- `ERR.CODE`, none for code 0 -/
  err : Option Err
  format : Word
  width : Word
  height : Word
  len : Word
deriving DecidableEq, Repr

/-- The run state: latched configuration, derived constants, cursor and block coordinates
(spec/10_state.md R20 to R22). Derived values are natural numbers: size arithmetic is exact (spec/00_scope.md R6, R7). -/
structure Run where
  /-- `F` -/
  f : Format
  /-- `W` -/
  w : Word
  /-- `H` -/
  h : Word
  /-- `L` -/
  l : Word
  /-- `NBX` -/
  nbx : Nat
  /-- `NBY` -/
  nby : Nat
  /-- `BSZ` -/
  bsz : Nat
  /-- `CUR`, the block cursor: the program counter -/
  cur : Nat
  /-- `BX` -/
  blkX : Nat
  /-- `BY` -/
  blkY : Nat
deriving DecidableEq, Repr

/-- A byte space: the bytes that differ from `Config.unwritten`, at strictly rising offsets (`Memory.wf`, in Ops). -/
abbrev Memory := List Host.Cell

/-- The transient values of one lane (spec/10_state.md R23): what a selector code reads, and the texel it writes.
The model's own group: notes/assumptions/3.md. -/
structure Lane where
  /-- `C0`, `C1` -/
  c0 : Colour565
  c1 : Colour565
  /-- `A0`, `A1` -/
  a0 : Byte
  a1 : Byte
  /-- the lane's entry of `TILE` -/
  texel : RGBA
deriving DecidableEq, Repr

/-- Where the platform keeps the two buffers the host provides, and how large they are (spec/20_memory.md R50,
spec/70_reset_and_hazards.md R246). The places count for admitting a launch only: the host's accesses go by offset, so
buffers that overlap share no byte. DESIGN CHOICE, unsafe: notes/assumptions/11.md, 23.md. -/
structure Buffers where
  inBase : Nat
  inSize : Nat
  outBase : Nat
  outSize : Nat
deriving DecidableEq, Repr

/-- Where the platform places the host registers on its bus: the open parameters `REG_BASE` and register stride of
spec/00_scope.md R6. Any value; no step changes it. DESIGN CHOICE: notes/assumptions/20.md. -/
structure RegFile where
  /-- `REG_BASE` -/
  base : Nat
  stride : Nat
deriving DecidableEq, Repr

/-- Which kind of selector code a lane is given. -/
inductive CodeKind where
  | colour
  | alpha
deriving DecidableEq, Repr

/-- One access of the host, or the reset event (spec/00_scope.md R5, spec/70_reset_and_hazards.md R240, R250). -/
inductive HostCmd where
  /-- write a register -/
  | write (idx : Nat) (v : Word)
  /-- read a register -/
  | read (idx : Nat)
  | writeIn (offset : Nat) (b : Byte)
  | readIn (offset : Nat)
  | writeOut (offset : Nat) (b : Byte)
  | readOut (offset : Nat)
  /-- provide the two buffers (R246) -/
  | provide (bufs : Buffers)
  /-- the reset event -/
  | reset
deriving DecidableEq, Repr

/-- One register access of the host by bus address (spec/00_scope.md R6, spec/10_state.md R11). -/
inductive BusCmd where
  | write (addr : Nat) (v : Word)
  | read (addr : Nat)
deriving DecidableEq, Repr

/-- What comes next in the interleaving of the agents (notes/assumptions/2.md). -/
inductive Event where
  /-- the host makes one access -/
  | host (c : HostCmd)
  /-- the host accesses a register by its bus address -/
  | bus (c : BusCmd)
  /-- `DEC` takes its turn -/
  | dec
  /-- a lane executes one selector code, given in the low bits of a byte (notes/assumptions/3.md) -/
  | code (k : CodeKind) (b : Byte)
deriving DecidableEq, Repr

/-- The environment's side of the interface; every field is the model's own. -/
structure HostSide where
  /-- events still to come; when there are none, only `DEC` steps -/
  agenda : List Event
  /-- what the host's last read returned -/
  rdata : Word
  /-- has `STATUS` been read as DONE or ERROR since the last accepted START (spec/20_memory.md R51)? -/
  seen : Bool
  /-- `OUT` as it was when the last run was accepted (spec/70_reset_and_hazards.md R241) -/
  outBefore : Memory
  bufs : Buffers
  /-- `REG_BASE` and the register stride -/
  regFile : RegFile
  /-- names the next free value -/
  freeTick : Nat
deriving DecidableEq, Repr

/-- The whole state (spec/10_state.md R10), and the model's own two groups `lane` and `host`. -/
structure State where
  regs : HostRegs
  run : Run
  /-- `IN` -/
  inMem : Memory
  /-- `OUT` -/
  outMem : Memory
  lane : Lane
  host : HostSide
deriving DecidableEq, Repr

/-- Why a step stops with a fault. -/
inductive Fault where
  /-- Raised by the sequencer when `STATUS` is BUSY and the latched format is none of the three, or the latched block
  size is not that format's. No run reaches such a state (spec/44_image_decode.md R186: "it can meet no fourth case").
  Safe. -/
  | noBlockOperation
  /-- Raised by a host access to a byte outside the buffers the host provides (spec/20_memory.md R40, R41,
  spec/70_reset_and_hazards.md R246): the byte does not exist. Safe. -/
  | outsideBuffer (offset : Nat)
deriving DecidableEq, Repr

/-- Why a step is refused. -/
inductive Refusal where
  /-- Raised by an arm of `exec` whose instruction has no meaning yet. Safe. -/
  | notModelled (mnemonic : String)
  /-- Raised by a host access to a register number outside 0 to 6: "names no register: the model refuses such an
  access" (spec/10_state.md R12, U9). Safe. -/
  | noSuchRegister (idx : Nat)
  /-- Raised by a host access to a bus address at which no register lies: it names no register
  (spec/10_state.md R12, U9; spec/00_scope.md R6). Safe: notes/assumptions/20.md. -/
  | noRegisterAt (addr : Nat)
  /-- Raised by a host write the host must not make during a run: the model "refuses a host step that touches" those
  bytes (spec/20_memory.md R56, U6, U7). Safe for a host that keeps its duties: notes/assumptions/10.md. -/
  | hostRace
  /-- Raised by a START that would begin a run whose buffers are too small, or overlap each other or the register file:
  "a model refuses such a launch"
  (spec/20_memory.md R50, spec/70_reset_and_hazards.md R246, U5). Safe. -/
  | launchNotAdmitted
  /-- Raised by the lane event when the latched format has no such selector code (spec/30_encoding.md R79), or no START
  has been accepted since reset, when `F` is the model's and no format (notes/assumptions/24.md). Safe. -/
  | noSuchCode
deriving DecidableEq, Repr

/-- The registers after reset (spec/10_state.md R27). -/
def HostRegs.reset : HostRegs where
  status := .idle
  err := none
  format := 0
  width := 0
  height := 0
  len := 0

/-- The run state after reset: unspecified (spec/10_state.md R27), so every value here is the model's.
DESIGN CHOICE, unsafe: notes/assumptions/5.md. A lane event before the first START reads `F`: notes/assumptions/24.md. -/
def Run.reset : Run where
  f := .other 0
  w := 0
  h := 0
  l := 0
  nbx := 0
  nby := 0
  bsz := 8
  cur := 0
  blkX := 0
  blkY := 0

/-- A lane before any selector code. DESIGN CHOICE: notes/assumptions/3.md. -/
def Lane.reset : Lane where
  c0 := 0
  c1 := 0
  a0 := 0
  a1 := 0
  texel := ⟨0, 0, 0, 0⟩

/-- Buffers that every run that proceeds fits in: `L < 2^32` and `OUT` offsets below `2^35`
(spec/44_image_decode.md R183). DESIGN CHOICE: notes/assumptions/11.md. -/
def Buffers.reset : Buffers where
  inBase := 0
  inSize := 2 ^ 32
  outBase := 2 ^ 32
  outSize := 2 ^ 35

/-- A register file beyond the buffers of `Buffers.reset`, one register every four bytes.
DESIGN CHOICE: notes/assumptions/20.md. -/
def RegFile.reset : RegFile where
  base := 2 ^ 32 + 2 ^ 35
  stride := 4

/-- The environment before its first event. DESIGN CHOICE: notes/assumptions/2.md, 8.md, 9.md, 16.md. -/
def HostSide.reset : HostSide where
  agenda := []
  rdata := 0
  seen := true
  outBefore := []
  bufs := Buffers.reset
  regFile := RegFile.reset
  freeTick := 0

/-- THE STATE AFTER RESET (spec/10_state.md R27): the registers as the spec says, no byte of memory listed, and the
named values for the rest. There is no reset vector: nothing runs until a START is accepted. -/
def State.reset : State where
  regs := HostRegs.reset
  run := Run.reset
  inMem := []
  outMem := []
  lane := Lane.reset
  host := HostSide.reset

end Sys2Proof.Machine
end

