-- ==== Sys2Proof/Machine/Ops.lean ====
section
/-! DEFINITION. The named operations over memory, registers and run state: byte access, record fetch, pixel store, the
address translator XLAT, the cursor's advance, taking an error, host register access. -/

namespace Sys2Proof.Machine

/-! ## Byte spaces (spec/20_memory.md) -/

/-- The byte at an offset: the last value written there (R46), or what an unwritten byte reads as. -/
def Memory.read (m : Memory) (a : Nat) : Byte :=
  match m with
  | [] => Config.unwritten
  | (k, b) :: rest => if a = k then b else Memory.read rest a

/-- Write one byte and keep the canonical form: writing what an unlisted byte reads as removes the entry. -/
def Memory.write (m : Memory) (a : Nat) (v : Byte) : Memory :=
  match m with
  | [] => if v = Config.unwritten then [] else [(a, v)]
  | (k, b) :: rest =>
    if a < k then (if v = Config.unwritten then (k, b) :: rest else (a, v) :: (k, b) :: rest)
    else if a = k then (if v = Config.unwritten then rest else (a, v) :: rest)
    else (k, b) :: Memory.write rest a v

/-- The canonical form from offset `lo` on: strictly rising offsets, no entry that says what an unlisted byte says. -/
def Memory.wfFrom (lo : Nat) (m : Memory) : Bool :=
  match m with
  | [] => true
  | (k, b) :: rest => decide (lo ≤ k) && decide (b ≠ Config.unwritten) && Memory.wfFrom (k + 1) rest

/-- The canonical form of a byte space. -/
def Memory.wf (m : Memory) : Bool := Memory.wfFrom 0 m

/-- The `n` bytes from offset `a`, in ascending order: a block fetch (spec/20_memory.md R45). -/
def fetchBytes (m : Memory) (a n : Nat) : List Byte := (List.range n).map fun j => Memory.read m (a + j)

/-- `MemRead(IN, a, n)`: the little-endian value of those bytes (spec/20_memory.md R42). -/
def memRead (m : Memory) (a n : Nat) : Nat := leNat (fetchBytes m a n)

/-- `MemWrite(OUT, a, 4, px)`: red, green, blue, alpha at ascending offsets (spec/20_memory.md R43). -/
def writePixel (m : Memory) (a : Nat) (px : RGBA) : Memory :=
  Memory.write (Memory.write (Memory.write (Memory.write m a px.r) (a + 1) px.g) (a + 2) px.b) (a + 3) px.a

/-- Channel `c` of a pixel, counted as it lies in memory: 0 red, 1 green, 2 blue, 3 alpha (spec/20_memory.md R43). -/
def channel (px : RGBA) (c : Nat) : Byte :=
  match c with
  | 0 => px.r
  | 1 => px.g
  | 2 => px.b
  | _ => px.a

/-! ## Sizes (spec/44_image_decode.md R181 to R183), exact -/

/-- `ceil4(n) = (n + 3) / 4` (spec/00_scope.md section 8). -/
def ceil4 (n : Nat) : Nat := (n + 3) / 4

/-- `REQ` for a width, a height and a block size (R183). -/
def requiredLength (w h : Word) (bsz : Nat) : Nat := ceil4 w.toNat * ceil4 h.toNat * bsz

/-- `REQ` of the run in progress. -/
def Run.req (r : Run) : Nat := r.nbx * r.nby * r.bsz

/-- How many bytes of `OUT` the image takes, `4*W*H` (spec/20_memory.md R41). -/
def imageBytes (w h : Word) : Nat := 4 * (w.toNat * h.toNat)

/-! ## XLAT, the block-to-pixel address translator (spec/44_image_decode.md R188, R189) -/

/-- Pixel column of texel `i` of block column `bx`. -/
def texelX (bx i : Nat) : Nat := 4 * bx + i % 4

/-- Pixel row of texel `i` of block row `by`. -/
def texelY (by' i : Nat) : Nat := 4 * by' + i / 4

/-- The byte offset in `OUT` of the red byte of pixel `(x, y)`. -/
def pixelAddr (w : Word) (x y : Nat) : Nat := 4 * (y * w.toNat + x)

/-- `XLAT`: where texel `i = 4*row + col` of block `(bx, by)` goes, none when the edge clip drops it. -/
def xlat (bx by' i : Nat) (w h : Word) : Option Nat :=
  if texelX bx i < w.toNat ∧ texelY by' i < h.toNat then some (pixelAddr w (texelX bx i) (texelY by' i)) else none

/-- Store texel `i` of block `(bx, by)` if it is enabled (spec/44_image_decode.md R186). -/
def storeTexel (w h : Word) (bx by' : Nat) (texel : Nat → RGBA) (m : Memory) (i : Nat) : Memory :=
  match xlat bx by' i w h with
  | some addr => writePixel m addr (texel i)
  | none => m

/-- Store the enabled texels of a tile of 16 (R186). -/
def storeTile (w h : Word) (bx by' : Nat) (texel : Nat → RGBA) (m : Memory) : Memory :=
  (List.range 16).foldl (storeTexel w h bx by' texel) m

/-! ## The run -/

/-- Cursor and coordinates after one block (spec/44_image_decode.md R186, R187). -/
def Run.advance (r : Run) : Run :=
  if r.blkX + 1 = r.nbx then { r with cur := r.cur + r.bsz, blkX := 0, blkY := r.blkY + 1 }
  else { r with cur := r.cur + r.bsz, blkX := r.blkX + 1 }

/-- `STATUS` after one block: DONE when every block is done (R186, R191). -/
def statusAfter (r : Run) : Status := if r.blkY = r.nby then .done else .busy

/-- The block step of `DEC` with the record's texels already decoded (R186): store, advance, complete. It is enabled
exactly when `STATUS` is BUSY; otherwise `DEC` has no step and nothing happens (notes/assumptions/17.md). -/
def blockStep (texel : Nat → RGBA) (s : State) : Host.Outcome State Fault Refusal :=
  if s.regs.status = .busy then
    .next { s with
      outMem := storeTile s.run.w s.run.h s.run.blkX s.run.blkY texel s.outMem
      run := s.run.advance
      regs := { s.regs with status := statusAfter s.run.advance } }
  else .next s

/-- A run-state register left unspecified: free value number `k` of this event. -/
def freeReg (s : State) (k : Nat) : Nat := (Config.freeRun (s.host.freeTick + k)).toNat

/-- TAKING AN ERROR, `raise` (spec/60_exceptions.md R215): `ERR` and `STATUS` are written; the latches stay; the other
six run-state registers are unspecified within their own ranges (free values, notes/assumptions/7.md). `IN` and `OUT`
are untouched and control goes nowhere. -/
def raise (e : Err) (s : State) : State :=
  { s with
    regs := { s.regs with err := some e, status := .error }
    run := { s.run with
      nbx := freeReg s 0 % (2 ^ 30 + 1)
      nby := freeReg s 1 % (2 ^ 30 + 1)
      bsz := if freeReg s 2 % 2 = 0 then 8 else 16
      cur := freeReg s 3
      blkX := freeReg s 4 % (2 ^ 30 + 1)
      blkY := freeReg s 5 % (2 ^ 30 + 1) }
    host := { s.host with freeTick := s.host.freeTick + 6 } }

/-- LEAVING AN ERROR has no instruction of its own (spec/60_exceptions.md R217): an accepted START latches the
configuration and clears `ERR` before it validates (spec/44_image_decode.md R184). -/
def latch (s : State) : State :=
  { s with
    regs := { s.regs with err := none }
    run := { s.run with
      f := Format.ofTag s.regs.format
      w := s.regs.width
      h := s.regs.height
      l := s.regs.len }
    host := { s.host with seen := false } }

/-- Entering BUSY with latches that passed validation (spec/44_image_decode.md R184). -/
def beginRun (bsz : Nat) (s : State) : State :=
  { s with
    regs := { s.regs with status := .busy }
    run := { s.run with
      nbx := ceil4 s.run.w.toNat
      nby := ceil4 s.run.h.toNat
      bsz := bsz
      cur := 0
      blkX := 0
      blkY := 0 }
    host := { s.host with outBefore := s.outMem } }

/-- START's three checks in their order (spec/44_image_decode.md R185); the block size when they pass. -/
def validate (f : Format) (w h l : Word) : Except Err Nat :=
  match f.size? with
  | none => .error .unsupportedFormat
  | some bsz =>
    if w = 0 ∨ h = 0 then .error .invalidDimensions
    else if l.toNat < requiredLength w h bsz then .error .unexpectedEndOfData
    else .ok bsz

/-- Do the provided buffers hold `L` bytes of `IN` and `4*W*H` bytes of `OUT`, and do these not overlap
(spec/20_memory.md R50, spec/70_reset_and_hazards.md R246)? -/
def Buffers.fitRun (b : Buffers) (w h l : Word) : Bool :=
  decide (l.toNat ≤ b.inSize) && decide (imageBytes w h ≤ b.outSize) &&
    (decide (b.inBase + l.toNat ≤ b.outBase) || decide (b.outBase + imageBytes w h ≤ b.inBase))

/-- The bus address of register `idx` (spec/00_scope.md R6, spec/10_state.md R11). -/
def RegFile.addr (m : RegFile) (idx : Nat) : Nat := m.base + idx * m.stride

/-- The register at a bus address, if there is one. A stride of 0 gives no register an address of its own. -/
def RegFile.number? (m : RegFile) (addr : Nat) : Option Nat :=
  if m.stride = 0 then none else (List.range Config.regCount).find? fun idx => decide (m.addr idx = addr)

/-- Does no register lie within the `size` bytes from `start` (spec/20_memory.md R50)? -/
def RegFile.clearOf (m : RegFile) (start size : Nat) : Bool :=
  (List.range Config.regCount).all fun idx =>
    decide (m.addr idx + Config.regBytes ≤ start) || decide (start + size ≤ m.addr idx)

/-- Does the platform admit a run: buffers that hold it, and no register inside them (spec/20_memory.md R50)? -/
def HostSide.fitRun (x : HostSide) (w h l : Word) : Bool :=
  x.bufs.fitRun w h l && x.regFile.clearOf x.bufs.inBase l.toNat && x.regFile.clearOf x.bufs.outBase (imageBytes w h)

/-- An access by bus address as the access by register number that it is (spec/10_state.md R11). -/
def BusCmd.byNumber (m : RegFile) (c : BusCmd) : Option HostCmd :=
  match c with
  | .write addr v => (m.number? addr).map (HostCmd.write · v)
  | .read addr => (m.number? addr).map HostCmd.read

/-- The bus address an access is made to. -/
def BusCmd.addr (c : BusCmd) : Nat :=
  match c with
  | .write addr _ => addr
  | .read addr => addr

/-! ## Lane results -/

/-- A colour code's result: the lane's texel (spec/40_endpoint_palette.md R107). -/
def State.withTexel (s : State) (t : RGBA) : State := { s with lane := { s.lane with texel := t } }

/-- An alpha nibble's or alpha code's result: the lane's alpha, the colour as it was (R140, R160). -/
def State.withAlpha (s : State) (a : Byte) : State :=
  { s with lane := { s.lane with texel := { s.lane.texel with a := a } } }

/-! ## Host register access (spec/10_state.md R11, R12) -/

/-- The number a host reads in `STATUS`; bits 31:2 are 0. -/
def Status.code (x : Status) : Word :=
  match x with
  | .idle => 0
  | .busy => 1
  | .done => 2
  | .error => 3

/-- The number a host reads in `ERR` (spec/60_exceptions.md R210); bits 31:2 are 0. -/
def errCode (e : Option Err) : Word :=
  match e with
  | none => 0
  | some .unexpectedEndOfData => 1
  | some .unsupportedFormat => 2
  | some .invalidDimensions => 3

/-- What a read of register `idx` returns; none outside 0 to 6. `CTRL` reads 0. -/
def regRead (r : HostRegs) (idx : Nat) : Option Word :=
  if idx = Config.regCtrl then some 0
  else if idx = Config.regStatus then some r.status.code
  else if idx = Config.regErr then some (errCode r.err)
  else if idx = Config.regFormat then some r.format
  else if idx = Config.regWidth then some r.width
  else if idx = Config.regHeight then some r.height
  else if idx = Config.regLen then some r.len
  else none

/-- The register file after a write of a value that is no START; none outside 0 to 6. `CTRL` stores nothing, a write
to `STATUS` or `ERR` is ignored. -/
def regWrite (r : HostRegs) (idx : Nat) (v : Word) : Option HostRegs :=
  if idx = Config.regCtrl ∨ idx = Config.regStatus ∨ idx = Config.regErr then some r
  else if idx = Config.regFormat then some { r with format := v }
  else if idx = Config.regWidth then some { r with width := v }
  else if idx = Config.regHeight then some { r with height := v }
  else if idx = Config.regLen then some { r with len := v }
  else none

end Sys2Proof.Machine
end

