-- ==== Sys2Proof/Machine/Palette.lean ====
section
/-! DEFINITION. PALX, the RGB565 palette expander (spec/40_endpoint_palette.md), and the meanings of the colour codes
CSEL4.k and CSEL3.k. Results are computed exactly and narrowed to a byte at the end; nothing is lost (R110). -/

namespace Sys2Proof.Machine

/-- `EXPAND5` (R100). The literals are the source's, unaudited: UNVERIFIED, notes/assumptions/15.md. -/
def expand5 (v : BitVec 5) : Byte :=
  let t := v.toNat * 255 + 16
  BitVec.ofNat 8 ((t / 32 + t) / 32)

/-- `EXPAND6` (R101). The literals are the source's, unaudited: UNVERIFIED, notes/assumptions/15.md. -/
def expand6 (v : BitVec 6) : Byte :=
  let t := v.toNat * 255 + 32
  BitVec.ofNat 8 ((t / 64 + t) / 64)

/-- `RGB565TO888` (R103). -/
def rgb565to888 (c : Colour565) : RGB := ⟨expand5 (red5 c), expand6 (green6 c), expand5 (blue5 c)⟩

/-- `(2*p + q) / 3` of a channel, truncating (R105). -/
def third (p q : Byte) : Byte := BitVec.ofNat 8 ((2 * p.toNat + q.toNat) / 3)

/-- `(p + q) / 2` of a channel, truncating (R106). -/
def half (p q : Byte) : Byte := BitVec.ofNat 8 ((p.toNat + q.toNat) / 2)

/-- A colour with alpha 255. -/
def opaqueColour (c : RGB) : RGBA := ⟨c.r, c.g, c.b, 255⟩

/-- `PAL[0..3]` (spec/10_state.md R23). -/
structure Palette where
  p0 : RGBA
  p1 : RGBA
  p2 : RGBA
  p3 : RGBA
deriving DecidableEq, Repr

/-- `PAL4`, the four-colour palette (R105); `(E0 + 2*E1)/3` is `third E1 E0`. -/
def pal4 (e0 e1 : RGB) : Palette where
  p0 := opaqueColour e0
  p1 := opaqueColour e1
  p2 := ⟨third e0.r e1.r, third e0.g e1.g, third e0.b e1.b, 255⟩
  p3 := ⟨third e1.r e0.r, third e1.g e0.g, third e1.b e0.b, 255⟩

/-- `PAL3`, the three-colour palette with a transparent entry (R106). -/
def pal3 (e0 e1 : RGB) : Palette where
  p0 := opaqueColour e0
  p1 := opaqueColour e1
  p2 := ⟨half e0.r e1.r, half e0.g e1.g, half e0.b e1.b, 255⟩
  p3 := ⟨0, 0, 0, 0⟩

/-- `CSEL` (R107). -/
def csel (p : Palette) (k : BitVec 2) : RGBA :=
  match k.toNat with
  | 0 => p.p0
  | 1 => p.p1
  | 2 => p.p2
  | _ => p.p3

/-- The four-colour palette of two endpoints. -/
def palette4 (c0 c1 : Colour565) : Palette := pal4 (rgb565to888 c0) (rgb565to888 c1)

/-- The three-colour palette of two endpoints. -/
def palette3 (c0 c1 : Colour565) : Palette := pal3 (rgb565to888 c0) (rgb565to888 c1)

/-- The palette a colour sub-block builds (R108); `punch` says whether the three-colour mode is available. -/
def blockPalette (c0 c1 : Colour565) (punch : Bool) : Palette :=
  if fourColour c0 c1 || !punch then palette4 c0 c1 else palette3 c0 c1

/-- `COLOURTILE`, texel `i` (R108). -/
def colourTile (c0 c1 : Colour565) (idx : BitVec 32) (punch : Bool) (i : Nat) : RGBA :=
  csel (blockPalette c0 c1 punch) (colourCode idx i)

/-- The lane's four-colour entry `k` becomes its texel. -/
def selectFour (k : BitVec 2) (s : State) : Host.Outcome State Fault Refusal :=
  .next (s.withTexel (csel (palette4 s.lane.c0 s.lane.c1) k))

/-- The lane's three-colour entry `k` becomes its texel. -/
def selectThree (k : BitVec 2) (s : State) : Host.Outcome State Fault Refusal :=
  .next (s.withTexel (csel (palette3 s.lane.c0 s.lane.c1) k))

/-- `CSEL4.0`: `(E0, 255)` (R105). -/
def execCsel4_0 (s : State) : Host.Outcome State Fault Refusal := selectFour 0 s

/-- `CSEL4.1`: `(E1, 255)` (R105). -/
def execCsel4_1 (s : State) : Host.Outcome State Fault Refusal := selectFour 1 s

/-- `CSEL4.2`: `((2*E0+E1)/3, 255)` (R105). -/
def execCsel4_2 (s : State) : Host.Outcome State Fault Refusal := selectFour 2 s

/-- `CSEL4.3`: `((E0+2*E1)/3, 255)` (R105). -/
def execCsel4_3 (s : State) : Host.Outcome State Fault Refusal := selectFour 3 s

/-- `CSEL3.0`: `(E0, 255)` (R106). -/
def execCsel3_0 (s : State) : Host.Outcome State Fault Refusal := selectThree 0 s

/-- `CSEL3.1`: `(E1, 255)` (R106). -/
def execCsel3_1 (s : State) : Host.Outcome State Fault Refusal := selectThree 1 s

/-- `CSEL3.2`: `((E0+E1)/2, 255)` (R106). -/
def execCsel3_2 (s : State) : Host.Outcome State Fault Refusal := selectThree 2 s

/-- `CSEL3.3`: `((0,0,0), 0)` (R106). -/
def execCsel3_3 (s : State) : Host.Outcome State Fault Refusal := selectThree 3 s

end Sys2Proof.Machine
end

