-- ==== Sys2Proof/Machine/Alpha.lean ====
section
/-! DEFINITION. ALPHA, the alpha interpolator's two record-driven modes: explicit nibbles (spec/42_bc2_block.md) and
gradients (spec/43_bc3_block.md), and the meanings of AEXP, AGRAD6.k and AGRAD4.k. The 1-bit mode of BC1 is in the
palettes (spec/41_bc1_block.md R122). -/

namespace Sys2Proof.Machine

/-- Nibble expansion `n | (n << 4)` (spec/42_bc2_block.md R142). -/
def expandNibble (n : BitVec 4) : Byte := BitVec.ofNat 8 (n.toNat ||| (n.toNat <<< 4))

/-- `GRAD6(A0, A1)[k]`, the table when `A0 > A1` (spec/43_bc3_block.md R162); the division truncates (R164, the spec's
own reading D18: DEDUCED, notes/assumptions/14.md). -/
def grad6 (a0 a1 : Byte) (k : BitVec 3) : Byte :=
  match k.toNat with
  | 0 => a0
  | 1 => a1
  | k => BitVec.ofNat 8 (((8 - k) * a0.toNat + (k - 1) * a1.toNat) / 7)

/-- `GRAD4(A0, A1)[k]`, the table when `A0 <= A1` (spec/43_bc3_block.md R163). -/
def grad4 (a0 a1 : Byte) (k : BitVec 3) : Byte :=
  match k.toNat with
  | 0 => a0
  | 1 => a1
  | 6 => 0
  | 7 => 255
  | k => BitVec.ofNat 8 (((6 - k) * a0.toNat + (k - 1) * a1.toNat) / 5)

/-- `AT[k]`, the alpha table of a BC3 record (spec/43_bc3_block.md R160). -/
def alphaTable (a0 a1 : Byte) (k : BitVec 3) : Byte :=
  if gradSix a0 a1 then grad6 a0 a1 k else grad4 a0 a1 k

/-- The lane's grad6 entry `k` becomes its alpha. -/
def selectGradSix (k : BitVec 3) (s : State) : Host.Outcome State Fault Refusal :=
  .next (s.withAlpha (grad6 s.lane.a0 s.lane.a1 k))

/-- The lane's grad4 entry `k` becomes its alpha. -/
def selectGradFour (k : BitVec 3) (s : State) : Host.Outcome State Fault Refusal :=
  .next (s.withAlpha (grad4 s.lane.a0 s.lane.a1 k))

/-- `AEXP`: alpha is the nibble written twice (spec/42_bc2_block.md R142). -/
def execAexp (n : BitVec 4) (s : State) : Host.Outcome State Fault Refusal := .next (s.withAlpha (expandNibble n))

/-- `AGRAD6.0`: alpha = A0 (spec/43_bc3_block.md R162). -/
def execAgrad6_0 (s : State) : Host.Outcome State Fault Refusal := selectGradSix 0 s

/-- `AGRAD6.1`: alpha = A1 (spec/43_bc3_block.md R162). -/
def execAgrad6_1 (s : State) : Host.Outcome State Fault Refusal := selectGradSix 1 s

/-- `AGRAD6.2`: alpha = (6*A0 + 1*A1)/7 (spec/43_bc3_block.md R162). -/
def execAgrad6_2 (s : State) : Host.Outcome State Fault Refusal := selectGradSix 2 s

/-- `AGRAD6.3`: alpha = (5*A0 + 2*A1)/7 (spec/43_bc3_block.md R162). -/
def execAgrad6_3 (s : State) : Host.Outcome State Fault Refusal := selectGradSix 3 s

/-- `AGRAD6.4`: alpha = (4*A0 + 3*A1)/7 (spec/43_bc3_block.md R162). -/
def execAgrad6_4 (s : State) : Host.Outcome State Fault Refusal := selectGradSix 4 s

/-- `AGRAD6.5`: alpha = (3*A0 + 4*A1)/7 (spec/43_bc3_block.md R162). -/
def execAgrad6_5 (s : State) : Host.Outcome State Fault Refusal := selectGradSix 5 s

/-- `AGRAD6.6`: alpha = (2*A0 + 5*A1)/7 (spec/43_bc3_block.md R162). -/
def execAgrad6_6 (s : State) : Host.Outcome State Fault Refusal := selectGradSix 6 s

/-- `AGRAD6.7`: alpha = (1*A0 + 6*A1)/7 (spec/43_bc3_block.md R162). -/
def execAgrad6_7 (s : State) : Host.Outcome State Fault Refusal := selectGradSix 7 s

/-- `AGRAD4.0`: alpha = A0 (spec/43_bc3_block.md R163). -/
def execAgrad4_0 (s : State) : Host.Outcome State Fault Refusal := selectGradFour 0 s

/-- `AGRAD4.1`: alpha = A1 (spec/43_bc3_block.md R163). -/
def execAgrad4_1 (s : State) : Host.Outcome State Fault Refusal := selectGradFour 1 s

/-- `AGRAD4.2`: alpha = (4*A0 + 1*A1)/5 (spec/43_bc3_block.md R163). -/
def execAgrad4_2 (s : State) : Host.Outcome State Fault Refusal := selectGradFour 2 s

/-- `AGRAD4.3`: alpha = (3*A0 + 2*A1)/5 (spec/43_bc3_block.md R163). -/
def execAgrad4_3 (s : State) : Host.Outcome State Fault Refusal := selectGradFour 3 s

/-- `AGRAD4.4`: alpha = (2*A0 + 3*A1)/5 (spec/43_bc3_block.md R163). -/
def execAgrad4_4 (s : State) : Host.Outcome State Fault Refusal := selectGradFour 4 s

/-- `AGRAD4.5`: alpha = (1*A0 + 4*A1)/5 (spec/43_bc3_block.md R163). -/
def execAgrad4_5 (s : State) : Host.Outcome State Fault Refusal := selectGradFour 5 s

/-- `AGRAD4.6`: alpha = 0 (spec/43_bc3_block.md R163). -/
def execAgrad4_6 (s : State) : Host.Outcome State Fault Refusal := selectGradFour 6 s

/-- `AGRAD4.7`: alpha = 255 (spec/43_bc3_block.md R163). -/
def execAgrad4_7 (s : State) : Host.Outcome State Fault Refusal := selectGradFour 7 s

end Sys2Proof.Machine
end

