-- ==== Sys2Proof/Machine/Block.lean ====
section
/-! DEFINITION. The three block operations: from a record's fields to 16 texels, then the block step
(spec/41_bc1_block.md, 42_bc2_block.md, 43_bc3_block.md, 44_image_decode.md R186). -/

namespace Sys2Proof.Machine

/-- `TILE[i]` of `BLK.BC1` (spec/41_bc1_block.md R120). -/
def texelBC1 (c0 c1 : Colour565) (idx : BitVec 32) (i : Nat) : RGBA := colourTile c0 c1 idx true i

/-- `TILE[i]` of `BLK.BC2` (spec/42_bc2_block.md R140). -/
def texelBC2 (aexp : BitVec 64) (c0 c1 : Colour565) (idx : BitVec 32) (i : Nat) : RGBA :=
  { colourTile c0 c1 idx false i with a := expandNibble (alphaNibble aexp i) }

/-- `TILE[i]` of `BLK.BC3` (spec/43_bc3_block.md R160). -/
def texelBC3 (a0 a1 : Byte) (aidx : BitVec 48) (c0 c1 : Colour565) (idx : BitVec 32) (i : Nat) : RGBA :=
  { colourTile c0 c1 idx false i with a := alphaTable a0 a1 (alphaCode aidx i) }

/-- `BLK.BC1` (spec/41_bc1_block.md R120). -/
def execBlkBC1 (c0 c1 : Colour565) (idx : BitVec 32) (s : State) : Host.Outcome State Fault Refusal :=
  blockStep (texelBC1 c0 c1 idx) s

/-- `BLK.BC2` (spec/42_bc2_block.md R140). -/
def execBlkBC2 (aexp : BitVec 64) (c0 c1 : Colour565) (idx : BitVec 32) (s : State) :
    Host.Outcome State Fault Refusal :=
  blockStep (texelBC2 aexp c0 c1 idx) s

/-- `BLK.BC3` (spec/43_bc3_block.md R160). -/
def execBlkBC3 (a0 a1 : Byte) (aidx : BitVec 48) (c0 c1 : Colour565) (idx : BitVec 32) (s : State) :
    Host.Outcome State Fault Refusal :=
  blockStep (texelBC3 a0 a1 aidx c0 c1 idx) s

end Sys2Proof.Machine
end

