-- ==== Sys2Proof/Machine/Start.lean ====
section
/-! DEFINITION. START, the host command (spec/44_image_decode.md R184, R185; errors spec/60_exceptions.md). -/

namespace Sys2Proof.Machine

/-- `START`: ignored in BUSY; otherwise one indivisible step that latches, validates, and raises the first error that
applies or enters BUSY. A run whose buffers the host has not provided, or that a register lies in, is refused, as the spec asks of a model
(spec/20_memory.md R50, spec/70_reset_and_hazards.md R246, U5); an error comes first, since `DEC` cannot see the
buffers (notes/assumptions/11.md). -/
def execStart (s : State) : Host.Outcome State Fault Refusal :=
  if s.regs.status = .busy then .next s
  else
    let t := latch s
    match validate t.run.f t.run.w t.run.h t.run.l with
    | .error e => .next (raise e t)
    | .ok bsz =>
      if t.host.fitRun t.run.w t.run.h t.run.l then .next (beginRun bsz t) else .refused .launchNotAdmitted

end Sys2Proof.Machine
end

