-- ==== Sys2Proof/Machine/Image.lean ====
section
/-! DEFINITION. The function a run computes, `decode` of spec/44_image_decode.md R180, written pixel by pixel: pixel
`(x, y)` is texel `4*(y mod 4) + x mod 4` of block `(x/4, y/4)` (R190), whose record lies at `(by*NBX + bx)*BSZ`
(R187). It reads no machine state. -/

namespace Sys2Proof.Machine

/-- The texels of a decoded record; none for an instruction that is no record. -/
def recordTexel (i : Instr) (n : Nat) : Option RGBA :=
  match i with
  | .blkBC1 c0 c1 idx => some (texelBC1 c0 c1 idx n)
  | .blkBC2 aexp c0 c1 idx => some (texelBC2 aexp c0 c1 idx n)
  | .blkBC3 a0 a1 aidx c0 c1 idx => some (texelBC3 a0 a1 aidx c0 c1 idx n)
  | _ => none

/-- Pixel `(x, y)` of the image of width `w` that `inp` holds in format `f`; none when `f` is no format. -/
def imagePixel (inp : Memory) (f : Format) (w : Word) (x y : Nat) : Option RGBA :=
  match f.size? with
  | none => none
  | some bsz =>
    match decodeRecord f (memRead inp ((y / 4 * ceil4 w.toNat + x / 4) * bsz) bsz) with
    | .ok i => recordTexel i (4 * (y % 4) + x % 4)
    | .error _ => none

/-- The byte the run stores at offset `a` of `OUT`, for `a < 4*W*H` (spec/20_memory.md R41, R43). -/
def imageByte (inp : Memory) (f : Format) (w : Word) (a : Nat) : Option Byte :=
  (imagePixel inp f w (a / 4 % w.toNat) (a / 4 / w.toNat)).map fun px => channel px (a % 4)

/-- `decode(bytes, width, height, format)` (spec/00_scope.md R4, spec/44_image_decode.md R180): the error, or the pixels
in row-major order. -/
def decodeImage (inp : Memory) (l w h : Word) (f : Format) : Except Err (List (Option RGBA)) :=
  match validate f w h l with
  | .error e => .error e
  | .ok _ =>
    .ok ((List.range (w.toNat * h.toNat)).map fun p => imagePixel inp f w (p % w.toNat) (p / w.toNat))

end Sys2Proof.Machine
end

