-- ==== Sys2Proof/Machine/HostPort.lean ====
section
/-! DEFINITION. The host's accesses and the reset event (spec/10_state.md R12, spec/20_memory.md R51, R56,
spec/70_reset_and_hazards.md R240, R241, R250). START is not here: it is an instruction. -/

namespace Sys2Proof.Machine

/-- May a pixel store of the run still be on its way, as the host can tell: from the accepted START to the read of
`STATUS` that returned DONE (spec/20_memory.md R51 (3), spec/70_reset_and_hazards.md R244)?

Only the LAST accepted START counts, where the spec is silent: a run that is DONE and was never read as DONE gives up
its bytes when another START is accepted, whether that START fails (ERROR) or begins a run of a smaller image, and at
the reset event. From then on they are shown, and may be written, as they are stored. DESIGN CHOICE, unsafe:
notes/assumptions/22.md. -/
def runUnseen (s : State) : Bool :=
  decide (s.regs.status = .busy) || (decide (s.regs.status = .done) && !s.host.seen)

/-- Is this byte of `OUT` one the run owns? -/
def outOwned (s : State) (a : Nat) : Bool := runUnseen s && decide (a < imageBytes s.run.w s.run.h)

/-- One of the two values a byte of `OUT` can have while the run owns it: from before the run, or the run's own
(spec/20_memory.md R56, spec/70_reset_and_hazards.md R241). Once the run is DONE its own value is in `OUT`. -/
def eitherByte (s : State) (old : Bool) (a : Nat) : Byte :=
  if old then Memory.read s.host.outBefore a
  else if s.regs.status = .busy then (imageByte s.inMem s.run.f s.run.w a).getD (Memory.read s.outMem a)
  else Memory.read s.outMem a

/-- The host receives a value. -/
def State.withRdata (s : State) (v : Word) : State := { s with host := { s.host with rdata := v } }

/-- A register read (spec/10_state.md R12). Reading `STATUS` as DONE or ERROR is the ordering point of
spec/20_memory.md R51. -/
def hostRead (idx : Nat) (s : State) : Host.Outcome State Fault Refusal :=
  match regRead s.regs idx with
  | none => .refused (.noSuchRegister idx)
  | some v =>
    let ended := decide (s.regs.status = .done) || decide (s.regs.status = .error)
    .next { s with host := { s.host with rdata := v, seen := s.host.seen || (decide (idx = Config.regStatus) && ended) } }

/-- A register write that is no START (spec/10_state.md R12, R13). -/
def hostWrite (idx : Nat) (v : Word) (s : State) : Host.Outcome State Fault Refusal :=
  match regWrite s.regs idx v with
  | none => .refused (.noSuchRegister idx)
  | some r => .next { s with regs := r }

/-- A host write of a byte of `IN`. During BUSY the bytes below `REQ` are the run's (spec/70_reset_and_hazards.md R243):
the model refuses that step (spec/20_memory.md R56, U6). -/
def hostWriteIn (a : Nat) (b : Byte) (s : State) : Host.Outcome State Fault Refusal :=
  if s.host.bufs.inSize ≤ a then .fault (.outsideBuffer a)
  else if s.regs.status = .busy ∧ a < s.run.req then .refused .hostRace
  else .next { s with inMem := Memory.write s.inMem a b }

/-- A host read of a byte of `IN`: no side effect (spec/20_memory.md R46). -/
def hostReadIn (a : Nat) (s : State) : Host.Outcome State Fault Refusal :=
  if s.host.bufs.inSize ≤ a then .fault (.outsideBuffer a)
  else .next (s.withRdata ((Memory.read s.inMem a).setWidth 32))

/-- A host write of a byte of `OUT`; refused while the run owns the byte (spec/20_memory.md R56, U7). -/
def hostWriteOut (a : Nat) (b : Byte) (s : State) : Host.Outcome State Fault Refusal :=
  if s.host.bufs.outSize ≤ a then .fault (.outsideBuffer a)
  else if outOwned s a then .refused .hostRace
  else .next { s with outMem := Memory.write s.outMem a b }

/-- A host read of a byte of `OUT`; while the run owns the byte, either of its two values (spec/20_memory.md R51 (3),
R56, U7): a free choice, notes/assumptions/9.md. -/
def hostReadOut (a : Nat) (s : State) : Host.Outcome State Fault Refusal :=
  if s.host.bufs.outSize ≤ a then .fault (.outsideBuffer a)
  else if outOwned s a then
    .next { s with host := { s.host with
      rdata := (eitherByte s (Config.freeView s.host.freeTick a) a).setWidth 32
      freeTick := s.host.freeTick + 1 } }
  else .next (s.withRdata ((Memory.read s.outMem a).setWidth 32))

/-- The host provides other buffers (spec/70_reset_and_hazards.md R246), not while `DEC` holds them (R250). What the
new buffers hold the spec does not say: the model keeps every byte of `IN` and `OUT` at its old offset, and two buffers
that overlap in platform memory still share no byte. DESIGN CHOICE, unsafe: notes/assumptions/23.md. -/
def hostProvide (b : Buffers) (s : State) : Host.Outcome State Fault Refusal :=
  if s.regs.status = .busy then .refused .hostRace else .next { s with host := { s.host with bufs := b } }

/-- `OUT` after a reset during BUSY: every byte of the image is one of its two values
(spec/70_reset_and_hazards.md R241): a free choice, notes/assumptions/8.md. -/
def abandonedOut (s : State) : Memory :=
  (List.range (imageBytes s.run.w s.run.h)).foldl
    (fun m a => Memory.write m a (eitherByte s (Config.freeReset s.host.freeTick a) a)) s.outMem

/-- The reset event (spec/70_reset_and_hazards.md R240, R241): registers and run state as after reset, `IN` untouched,
`OUT` untouched unless a run is abandoned. The environment's own fields stay, but nothing is owed any more. -/
def hostReset (s : State) : State :=
  { s with
    regs := HostRegs.reset
    run := Run.reset
    outMem := if s.regs.status = .busy then abandonedOut s else s.outMem
    host := { s.host with seen := true, freeTick := s.host.freeTick + 1 } }

/-- One access of the host, or the reset event. -/
def hostStep (c : HostCmd) (s : State) : Host.Outcome State Fault Refusal :=
  match c with
  | .write idx v => hostWrite idx v s
  | .read idx => hostRead idx s
  | .writeIn a b => hostWriteIn a b s
  | .readIn a => hostReadIn a s
  | .writeOut a b => hostWriteOut a b s
  | .readOut a => hostReadOut a s
  | .provide b => hostProvide b s
  | .reset => .next (hostReset s)

end Sys2Proof.Machine
end

