-- ==== Sys2Proof/Machine/Dispatch.lean ====
section
/-! DEFINITION. Dispatch: one arm per instruction, each one call of its meaning. -/

namespace Sys2Proof.Machine

/-- The meaning of an instruction (spec/opcode_table.json, each row's rule). -/
def exec (i : Instr) (s : State) : Host.Outcome State Fault Refusal :=
  match i with
  | .start => Sys2Proof.Machine.execStart s
  | .blkBC1 c0 c1 idx => Sys2Proof.Machine.execBlkBC1 c0 c1 idx s
  | .blkBC2 aexp c0 c1 idx => Sys2Proof.Machine.execBlkBC2 aexp c0 c1 idx s
  | .blkBC3 a0 a1 aidx c0 c1 idx => Sys2Proof.Machine.execBlkBC3 a0 a1 aidx c0 c1 idx s
  | .csel4_0 => Sys2Proof.Machine.execCsel4_0 s
  | .csel4_1 => Sys2Proof.Machine.execCsel4_1 s
  | .csel4_2 => Sys2Proof.Machine.execCsel4_2 s
  | .csel4_3 => Sys2Proof.Machine.execCsel4_3 s
  | .csel3_0 => Sys2Proof.Machine.execCsel3_0 s
  | .csel3_1 => Sys2Proof.Machine.execCsel3_1 s
  | .csel3_2 => Sys2Proof.Machine.execCsel3_2 s
  | .csel3_3 => Sys2Proof.Machine.execCsel3_3 s
  | .aexp n => Sys2Proof.Machine.execAexp n s
  | .agrad6_0 => Sys2Proof.Machine.execAgrad6_0 s
  | .agrad6_1 => Sys2Proof.Machine.execAgrad6_1 s
  | .agrad6_2 => Sys2Proof.Machine.execAgrad6_2 s
  | .agrad6_3 => Sys2Proof.Machine.execAgrad6_3 s
  | .agrad6_4 => Sys2Proof.Machine.execAgrad6_4 s
  | .agrad6_5 => Sys2Proof.Machine.execAgrad6_5 s
  | .agrad6_6 => Sys2Proof.Machine.execAgrad6_6 s
  | .agrad6_7 => Sys2Proof.Machine.execAgrad6_7 s
  | .agrad4_0 => Sys2Proof.Machine.execAgrad4_0 s
  | .agrad4_1 => Sys2Proof.Machine.execAgrad4_1 s
  | .agrad4_2 => Sys2Proof.Machine.execAgrad4_2 s
  | .agrad4_3 => Sys2Proof.Machine.execAgrad4_3 s
  | .agrad4_4 => Sys2Proof.Machine.execAgrad4_4 s
  | .agrad4_5 => Sys2Proof.Machine.execAgrad4_5 s
  | .agrad4_6 => Sys2Proof.Machine.execAgrad4_6 s
  | .agrad4_7 => Sys2Proof.Machine.execAgrad4_7 s

end Sys2Proof.Machine
end

