-- ==== Sys2Proof/Machine/Sequencer.lean ====
section
/-! DEFINITION. The sequencer: what the machine does next, which agent's turn it is, and how an instruction's bits are
fetched and decoded (spec/00_scope.md R5, spec/44_image_decode.md R186). -/

namespace Sys2Proof.Machine

/-- What a step will do, with the state it does it to. -/
inductive Issue where
  /-- execute a decoded instruction -/
  | instruction (i : Instr) (s : State)
  /-- the host makes an access -/
  | access (c : HostCmd) (s : State)
  /-- no agent has an enabled step -/
  | nothing (s : State)
  | stuck (r : Fault)
  | refuse (r : Refusal)
deriving DecidableEq, Repr

/-- The same state with other events to come. -/
def State.withAgenda (s : State) (a : List Event) : State := { s with host := { s.host with agenda := a } }

/-- `DEC`'s turn: in BUSY it fetches the record at `CUR` and decodes it under the latched format; otherwise it has no
step (spec/44_image_decode.md R186, R191). -/
def issueDec (s : State) : Issue :=
  if s.regs.status = .busy then
    match decode (.record s.run.f) (fetchBytes s.inMem s.run.cur s.run.bsz) with
    | .ok (i, _) => .instruction i s
    | .error _ => .stuck .noBlockOperation
  else .nothing s

/-- The context a lane's selector code is read in: the latched format, and the predicate of the lane's own endpoints
(spec/30_encoding.md R79, R82).

A code outside a run is read under `F` too, and since reset `F` is unspecified until a START is accepted
(spec/10_state.md R20, R27), where the spec has no lane step that reads it: the model reads the `F` of `Run.reset`, which
is no format, and so refuses the code. DESIGN CHOICE, safe: notes/assumptions/24.md. -/
def codeCtx (k : CodeKind) (s : State) : Ctx :=
  match k with
  | .colour => .colour s.run.f (fourColour s.lane.c0 s.lane.c1)
  | .alpha => .alpha s.run.f (gradSix s.lane.a0 s.lane.a1)

/-- A lane executes one selector code. -/
def issueCode (k : CodeKind) (b : Byte) (s : State) : Issue :=
  match decode (codeCtx k s) [b] with
  | .ok (i, _) => .instruction i s
  | .error _ => .refuse .noSuchCode

/-- The host's turn. A write to `CTRL` goes to the decoder: with bit 0 = 1 it is START, with bit 0 = 0 it does nothing
(spec/10_state.md R13). -/
def issueHost (c : HostCmd) (s : State) : Issue :=
  match c with
  | .write idx v =>
    if idx = Config.regCtrl then
      match decode .ctrl (leBytes 4 v.toNat) with
      | .ok (i, _) => .instruction i s
      | .error _ => .nothing s
    else .access (.write idx v) s
  | c => .access c s

/-- What comes next: the first event of the agenda, or `DEC` when there is none. -/
def issue (s : State) : Issue :=
  match s.host.agenda with
  | [] => issueDec s
  | .dec :: rest => issueDec (s.withAgenda rest)
  | .code k b :: rest => issueCode k b (s.withAgenda rest)
  | .host c :: rest => issueHost c (s.withAgenda rest)
  | .bus b :: rest =>
    match b.byNumber s.host.regFile with
    | some c => issueHost c (s.withAgenda rest)
    | none => .refuse (.noRegisterAt b.addr)

/-- The access the host makes in the next event, by register number, whichever way it reaches the register. -/
def nextAccess (s : State) : Option HostCmd :=
  match s.host.agenda with
  | .host c :: _ => some c
  | .bus b :: _ => b.byNumber s.host.regFile
  | _ => none

/-- Write bytes at ascending offsets. -/
def writeBytes (m : Memory) (a : Nat) (bs : List Byte) : Memory :=
  match bs with
  | [] => m
  | b :: rest => writeBytes (Memory.write m a b) (a + 1) rest

/-- The state of an accepted one-block run (a 4x4 image) in format `f` whose record is `bs`, `DEC`'s turn next. -/
def launched (f : Format) (bs : List Byte) (s : State) : State :=
  { s with
    regs := { s.regs with status := .busy, err := none }
    run :=
      { f := f, w := 4, h := 4, l := BitVec.ofNat 32 bs.length, nbx := 1, nby := 1, bsz := bs.length,
        cur := 0, blkX := 0, blkY := 0 }
    inMem := writeBytes s.inMem 0 bs
    host := { s.host with agenda := .dec :: s.host.agenda, seen := false, outBefore := s.outMem } }

/-- A lane that is given one colour code in the mode `four`. -/
def laneColour (f : Format) (four : Bool) (b : Byte) (s : State) : State :=
  { s with
    run := { s.run with f := f }
    lane := { s.lane with c0 := if four then 1 else 0, c1 := 0 }
    host := { s.host with agenda := .code .colour b :: s.host.agenda } }

/-- A lane that is given one alpha code in the mode `grad6`. -/
def laneAlpha (f : Format) (grad6 : Bool) (b : Byte) (s : State) : State :=
  { s with
    run := { s.run with f := f }
    lane := { s.lane with a0 := if grad6 then 1 else 0, a1 := 0 }
    host := { s.host with agenda := .code .alpha b :: s.host.agenda } }

/-- The state in which the next step fetches exactly the word `w` (notes/assumptions/1.md): the host's write of `CTRL`,
an accepted one-block run, or a lane's selector code, as the word's context says. -/
def fetchNext (s : State) (nbits w : Nat) : State :=
  match ctxOfTable nbits w with
  | none => s
  | some .ctrl => s.withAgenda (.host (.write Config.regCtrl (BitVec.ofNat 32 w)) :: s.host.agenda)
  | some (.record f) => launched f (leBytes (Ctx.record f).size w) s
  | some (.colour f four) => laneColour f four (BitVec.ofNat 8 w) s
  | some (.alpha f grad6) => laneAlpha f grad6 (BitVec.ofNat 8 w) s

end Sys2Proof.Machine
end

