-- ==== Sys2Proof/Machine/Step.lean ====
section
/-! DEFINITION. One step of the machine. -/

namespace Sys2Proof.Machine

/-- One step: what the sequencer issues is carried out. Where no agent has an enabled step the state stays
(notes/assumptions/2.md). -/
def step (s : State) : Host.Outcome State Fault Refusal :=
  match issue s with
  | .instruction i t => exec i t
  | .access c t => hostStep c t
  | .nothing t => .next t
  | .stuck r => .fault r
  | .refuse r => .refused r

/-- `s` with the instruction whose bits are `w` as the one the next step fetches. -/
def State.withFetchWord (s : State) (nbits w : Nat) : State := fetchNext s nbits w

end Sys2Proof.Machine
end

