-- ==== Sys2Proof/Machine/Asm.lean ====
section
/-! DEFINITION. The textual form of records and images (spec/30_encoding.md R83, R84): from the characters of a line to
the record, from the lines of an image to the bytes of `IN` and the register values; and the boot and launch sequence
of spec/70_reset_and_hazards.md R242 as events of the host. The machine never sees text. -/

namespace Sys2Proof.Machine

/-- The parts of a line between occurrences of a character. -/
def splitAtChar (c : Char) (text : List Char) : List (List Char) :=
  match text with
  | [] => [[]]
  | x :: rest =>
    match splitAtChar c rest with
    | [] => [[x]]
    | part :: parts => if x = c then [] :: part :: parts else (x :: part) :: parts

/-- The words of a line: what follows `;` is a comment. -/
def lineWords (line : List Char) : List (List Char) :=
  (splitAtChar ' ' (line.takeWhile (· ≠ ';'))).filter (· ≠ [])

/-- The value of a digit character in a base up to 16. -/
def digitValue (base : Nat) (c : Char) : Option Nat :=
  let n := c.toNat
  let v :=
    if 48 ≤ n ∧ n ≤ 57 then n - 48
    else if 97 ≤ n ∧ n ≤ 102 then n - 87
    else if 65 ≤ n ∧ n ≤ 70 then n - 55
    else base
  if v < base then some v else none

/-- The value of digits, `acc` the value of those already read. -/
def digitsValue (base acc : Nat) (cs : List Char) : Option Nat :=
  match cs with
  | [] => some acc
  | c :: rest =>
    match digitValue base c with
    | some d => digitsValue base (acc * base + d) rest
    | none => none

/-- A number: hexadecimal with `0x`, or decimal (R83). -/
def parseNumber (cs : List Char) : Option Nat :=
  match cs with
  | [] => none
  | '0' :: 'x' :: d :: ds => digitsValue 16 0 (d :: ds)
  | d :: ds => digitsValue 10 0 (d :: ds)

/-- The value of a field: a number, or the list form of a packed field (R84). -/
inductive FieldValue where
  | number (n : Nat)
  | codes (ks : List Nat)
deriving DecidableEq, Repr

/-- The value after a field's `=`. -/
def parseFieldValue (cs : List Char) : Option FieldValue :=
  match cs with
  | '[' :: rest =>
    if rest.getLast? = some ']' then
      ((splitAtChar ',' rest.dropLast).mapM parseNumber).map .codes
    else none
  | cs => (parseNumber cs).map .number

/-- What follows `name=` in a line's words. -/
def fieldText (name : String) (ws : List (List Char)) : Option (List Char) :=
  match ws with
  | [] => none
  | word :: rest =>
    if (word.takeWhile (· ≠ '=')) = name.toList ∧ '=' ∈ word then some ((word.dropWhile (· ≠ '=')).drop 1)
    else fieldText name rest

/-- A plain number field of `bits` bits. -/
def numberField (name : String) (bits : Nat) (ws : List (List Char)) : Option Nat :=
  match (fieldText name ws).bind parseFieldValue with
  | some (.number n) => if n < 2 ^ bits then some n else none
  | _ => none

/-- The sum of `k_i << (width*i)` (R84), from the first code on. -/
def packCodes (width : Nat) (ks : List Nat) : Nat :=
  match ks with
  | [] => 0
  | k :: rest => k + 2 ^ width * packCodes width rest

/-- A packed field of sixteen codes of `width` bits, as a number or in list form (R83, R84). -/
def packedField (name : String) (width : Nat) (ws : List (List Char)) : Option Nat :=
  match (fieldText name ws).bind parseFieldValue with
  | some (.number n) => if n < 2 ^ (16 * width) then some n else none
  | some (.codes ks) => if ks.length = 16 ∧ ks.all (· < 2 ^ width) then some (packCodes width ks) else none
  | none => none

/-- The record a line writes (R83). -/
def parseRecord (line : List Char) : Option Instr :=
  match lineWords line with
  | [] => none
  | head :: ws => do
    let c0 ← numberField "c0" 16 ws
    let c1 ← numberField "c1" 16 ws
    let idx ← packedField "idx" 2 ws
    if head = "bc1".toList then
      some (.blkBC1 (BitVec.ofNat 16 c0) (BitVec.ofNat 16 c1) (BitVec.ofNat 32 idx))
    else if head = "bc2".toList then do
      let a ← packedField "a" 4 ws
      some (.blkBC2 (BitVec.ofNat 64 a) (BitVec.ofNat 16 c0) (BitVec.ofNat 16 c1) (BitVec.ofNat 32 idx))
    else if head = "bc3".toList then do
      let a0 ← numberField "a0" 8 ws
      let a1 ← numberField "a1" 8 ws
      let ai ← packedField "ai" 3 ws
      some (.blkBC3 (BitVec.ofNat 8 a0) (BitVec.ofNat 8 a1) (BitVec.ofNat 48 ai)
        (BitVec.ofNat 16 c0) (BitVec.ofNat 16 c1) (BitVec.ofNat 32 idx))
    else none

/-- An image, the "program" of this hardware (spec/00_scope.md R8). -/
structure Image where
  tag : Word
  width : Word
  height : Word
  len : Word
  /-- the bytes of `IN` -/
  bytes : List Byte
deriving DecidableEq, Repr

/-- The format a header names. -/
def parseFormat (cs : List Char) : Option (Format × Word) :=
  if cs = "BC1".toList then some (.bc1, Config.tagBC1)
  else if cs = "BC2".toList then some (.bc2, Config.tagBC2)
  else if cs = "BC3".toList then some (.bc3, Config.tagBC3)
  else none

/-- The image that lines write: a header, then one record a line in the header's format; `len` is the number of record
bytes unless the header gives it (R83). -/
def parseImage (lines : List (List Char)) : Option Image :=
  match lines with
  | [] => none
  | header :: body =>
    match lineWords header with
    | [] => none
    | head :: ws => do
      let (f, tag) ← (fieldText "fmt" ws).bind parseFormat
      let w ← numberField "w" 32 ws
      let h ← numberField "h" 32 ws
      let records ← body.mapM parseRecord
      let bytes := records.flatMap encode
      let len ← if (fieldText "len" ws).isSome then numberField "len" 32 ws else some bytes.length
      if head = ".image".toList ∧ records.all (Instr.wellFormedIn (.record f)) then
        some
          { tag := tag, width := BitVec.ofNat 32 w, height := BitVec.ofNat 32 h, len := BitVec.ofNat 32 len,
            bytes := bytes }
      else none

/-- The host's writes of the bytes of `IN` from offset `a` on. -/
def fillInput (a : Nat) (bs : List Byte) : List Event :=
  match bs with
  | [] => []
  | b :: rest => .host (.writeIn a b) :: fillInput (a + 1) rest

/-- The boot and launch sequence (spec/70_reset_and_hazards.md R242): fill `IN`, write the four configuration registers,
write `CTRL`, let `DEC` take `turns` turns, read `STATUS`. -/
def launchScript (img : Image) (turns : Nat) : List Event :=
  fillInput 0 img.bytes ++
    [.host (.write Config.regFormat img.tag), .host (.write Config.regWidth img.width),
      .host (.write Config.regHeight img.height), .host (.write Config.regLen img.len),
      .host (.write Config.regCtrl 1)] ++
    List.replicate turns .dec ++ [.host (.read Config.regStatus)]

end Sys2Proof.Machine
end

