-- ==== Sys2Proof/Safety.lean ====
section
/-! DEFINITION. What counts as a sound state and a good end, in the terms the statements use. -/

namespace Sys2Proof.Machine

/-- The run's constants are those of its latches, and the latches passed START's checks
(spec/10_state.md R20, spec/44_image_decode.md R181 to R185). -/
def Run.latched (r : Run) : Prop :=
  r.f.size? = some r.bsz ∧ r.w ≠ 0 ∧ r.h ≠ 0 ∧ r.nbx = ceil4 r.w.toNat ∧ r.nby = ceil4 r.h.toNat ∧
    r.req ≤ r.l.toNat

/-- How many blocks of the run are decoded: the row-major number of the block at the cursor. -/
def Run.blocksDone (r : Run) : Nat := r.blkY * r.nbx + r.blkX

/-- A run in progress: the block named next exists and the cursor stands at its record
(spec/10_state.md R21, R22, spec/44_image_decode.md R187). -/
def Run.inProgress (r : Run) : Prop :=
  r.latched ∧ r.blkX < r.nbx ∧ r.blkY < r.nby ∧ r.cur = r.blocksDone * r.bsz

/-- A completed run (spec/44_image_decode.md R191). -/
def Run.completed (r : Run) : Prop :=
  r.latched ∧ r.blkX = 0 ∧ r.blkY = r.nby ∧ r.cur = r.req

/-- What `STATUS` says is true of `ERR` and the run (spec/10_state.md R15, R16, R21). -/
def statusSound (s : State) : Prop :=
  match s.regs.status with
  | .idle => s.regs.err = none
  | .busy => s.regs.err = none ∧ s.run.inProgress ∧ s.host.fitRun s.run.w s.run.h s.run.l = true
  | .done => s.regs.err = none ∧ s.run.completed
  | .error => s.regs.err ≠ none

/-- The three byte spaces are in canonical form. -/
def memoriesSound (s : State) : Prop :=
  Memory.wf s.inMem = true ∧ Memory.wf s.outMem = true ∧ Memory.wf s.host.outBefore = true

/-- THE INVARIANT of every step. -/
def State.Inv (s : State) : Prop := memoriesSound s ∧ statusSound s

/-- The row-major number of the block that byte `a` of `OUT` belongs to (spec/44_image_decode.md R190). -/
def blockOfByte (r : Run) (a : Nat) : Nat := a / 4 / r.w.toNat / 4 * r.nbx + a / 4 % r.w.toNat / 4

/-- While a run is in progress, the bytes of the decoded blocks are the image's and the others are as before the run
(spec/44_image_decode.md R186, R190). -/
def PartialImage (s : State) : Prop :=
  s.regs.status = .busy →
    ∀ a, a < imageBytes s.run.w s.run.h →
      some (Memory.read s.outMem a) =
        if blockOfByte s.run a < s.run.blocksDone then imageByte s.inMem s.run.f s.run.w a
        else some (Memory.read s.host.outBefore a)

/-- `OUT` holds the whole image that `inp` encodes under the run's latches (spec/44_image_decode.md R180, R191). -/
def holdsImage (inp : Memory) (s : State) : Prop :=
  ∀ a, a < imageBytes s.run.w s.run.h →
    some (Memory.read s.outMem a) = imageByte inp s.run.f s.run.w a

/-- A run has ended (spec/70_reset_and_hazards.md R251). -/
def runEnded (s : State) : Prop := s.regs.status = .done ∨ s.regs.status = .error

/-- A final state is good when `STATUS` is DONE (spec/70_reset_and_hazards.md R251). -/
def goodEnd (s : State) : Prop := s.regs.status = .done

end Sys2Proof.Machine
end

