-- ==== Sys2Proof/Certificates/Slice0/Obligations.lean ====
section
/-! DEFINITION. The statements for the provers. Each docstring names the rule of spec/ a statement formalises. A rule
marked [decision] in the spec is the spec's own normative choice; a choice of the model is named with its entry in
notes/assumptions/. -/

namespace Sys2Proof.Machine

/-- Bit `n` of a record, by the bytes it is made of: bit `n mod 8` of byte `n / 8` (spec/30_encoding.md R70). -/
def recordBit (bs : List Byte) (n : Nat) : Bool := (bs.getD (n / 8) 0).getLsbD (n % 8)

/-- The field `v` is the slice of the record that begins at bit `lo` (spec/30_encoding.md R70). -/
def isSlice (bs : List Byte) (lo width : Nat) (v : BitVec width) : Prop :=
  ∀ n, n < width → v.getLsbD n = recordBit bs (lo + n)

/-- The colour codes of spec/opcode_table.json. -/
def colourCodes : List Instr :=
  [.csel4_0, .csel4_1, .csel4_2, .csel4_3, .csel3_0, .csel3_1, .csel3_2, .csel3_3]

/-- The alpha codes of spec/opcode_table.json that have no operand. -/
def alphaCodes : List Instr :=
  [.agrad6_0, .agrad6_1, .agrad6_2, .agrad6_3, .agrad6_4, .agrad6_5, .agrad6_6, .agrad6_7,
    .agrad4_0, .agrad4_1, .agrad4_2, .agrad4_3, .agrad4_4, .agrad4_5, .agrad4_6, .agrad4_7]

/-- A supported format with its tag number and block size (spec/30_encoding.md R79, R82). -/
def formatRows : List (Word × Format × Nat) := [(1, .bc1, 8), (2, .bc2, 16), (3, .bc3, 16)]

/-- `t` is `s` after one block step that stored `texel` (spec/44_image_decode.md R186): every enabled texel's four
bytes lie at the address XLAT gives for it, every other byte of `OUT` is as before, the cursor has moved by one record,
the coordinates to the next block in row-major order, `STATUS` is DONE exactly when that was the last, and nothing else
has changed. -/
def blockStepped (texel : Nat → RGBA) (s t : State) : Prop :=
  (∀ i, i < 16 → ∀ addr, xlat s.run.blkX s.run.blkY i s.run.w s.run.h = some addr →
    ∀ c, c < 4 → Memory.read t.outMem (addr + c) = channel (texel i) c) ∧
  (∀ a, (∀ i, i < 16 → ∀ addr, xlat s.run.blkX s.run.blkY i s.run.w s.run.h = some addr →
      a < addr ∨ addr + 4 ≤ a) → Memory.read t.outMem a = Memory.read s.outMem a) ∧
  t.run = { s.run with
    cur := s.run.cur + s.run.bsz
    blkX := if s.run.blkX + 1 = s.run.nbx then 0 else s.run.blkX + 1
    blkY := if s.run.blkX + 1 = s.run.nbx then s.run.blkY + 1 else s.run.blkY } ∧
  t.regs = { s.regs with status := if t.run.blkY = s.run.nby then .done else .busy } ∧
  t.inMem = s.inMem ∧ t.lane = s.lane ∧ t.host = s.host

end Sys2Proof.Machine

open Sys2Proof Sys2Proof.Machine

/-! ## Encodings -/

/-- Decoding the encoding of any instruction, in any context that selects it, gives it back with every operand at its
value, and leaves the bytes after it (spec/30_encoding.md sections 1 to 3). -/
def Obligations.DecodeOfEncodeGivesTheInstruction : Prop :=
  ∀ (c : Ctx) (i : Instr) (rest : List Byte), i.wellFormedIn c = true → decode c (encode i ++ rest) = .ok (i, rest)

/-- Except for the ignored bits of `CTRL`, bytes that decode are exactly the encoding of what they decode to, and the
context selects it (spec/30_encoding.md sections 1 to 3). -/
def Obligations.EncodeOfDecodeGivesTheBytes : Prop :=
  ∀ (c : Ctx) (bs : List Byte) (i : Instr) (rest : List Byte), c ≠ .ctrl → decode c bs = .ok (i, rest) →
    i.wellFormedIn c = true ∧ bs = encode i ++ rest

/-- A few instructions written out from the spec's encodings decode to what they stand for (vectors B1-3, B2-2, B3-6 of
spec/95_test_vectors.md; spec/10_state.md R13; spec/30_encoding.md R79). -/
def Obligations.WordsOfTheSpecDecode : Prop :=
  decode (.record .bc1) [0x00, 0xF8, 0x1F, 0x00, 0xE4, 0xE4, 0xE4, 0xE4] =
      .ok (.blkBC1 0xF800 0x001F 0xE4E4E4E4, []) ∧
  decode (.record .bc2)
      [0xF0, 0x0F, 0x00, 0x00, 0x00, 0x00, 0x00, 0xA5, 0x00, 0xF8, 0x1F, 0x00, 0xE4, 0xE4, 0xE4, 0xE4] =
      .ok (.blkBC2 0xA500000000000FF0 0xF800 0x001F 0xE4E4E4E4, []) ∧
  decode (.record .bc3)
      [0xC8, 0x64, 0x00, 0x80, 0x03, 0x00, 0x00, 0xE0, 0xFF, 0xFF, 0x00, 0x00, 0x00, 0x00, 0x00, 0x00] =
      .ok (.blkBC3 200 100 0xE00000038000 0xFFFF 0x0000 0x00000000, []) ∧
  decode .ctrl [0x03, 0x00, 0x00, 0x80] = .ok (.start, []) ∧
  decode .ctrl [0x02, 0x00, 0x00, 0x00] = .error .notStart ∧
  decode (.colour .bc1 false) [0x03] = .ok (.csel3_3, []) ∧
  decode (.colour .bc3 false) [0x03] = .ok (.csel4_3, []) ∧
  decode (.alpha .bc3 false) [0x06] = .ok (.agrad4_6, []) ∧
  decode (.alpha .bc3 true) [0x06] = .ok (.agrad6_6, [])

/-- Every record of the right length of every format decodes, whatever its bits, and takes exactly its own bytes
(spec/30_encoding.md sections 4 and 5: R81, R82). -/
def Obligations.EveryRecordIsLegal : Prop :=
  ∀ (tag : Word) (f : Format) (n : Nat), (tag, f, n) ∈ formatRows →
    ∀ (bs rest : List Byte), bs.length = n →
      ∃ (i : Instr) (texel : Nat → RGBA),
        decode (.record f) (bs ++ rest) = .ok (i, rest) ∧ ∀ k, recordTexel i k = some (texel k)

/-- A BC1 record's fields and colour codes are these slices of its bytes (spec/30_encoding.md R72, with the codes of
R76). -/
def Obligations.BC1RecordFields : Prop :=
  ∀ bs : List Byte, bs.length = 8 →
    ∃ (c0 c1 : Colour565) (idx : BitVec 32),
      decode (.record .bc1) bs = .ok (.blkBC1 c0 c1 idx, []) ∧
      isSlice bs 0 16 c0 ∧ isSlice bs 16 16 c1 ∧ isSlice bs 32 32 idx ∧
      ∀ i, i < 16 → isSlice bs (32 + 2 * i) 2 (colourCode idx i)

/-- A BC2 record's fields, alpha nibbles and colour codes are these slices of its bytes (spec/30_encoding.md R73). -/
def Obligations.BC2RecordFields : Prop :=
  ∀ bs : List Byte, bs.length = 16 →
    ∃ (aexp : BitVec 64) (c0 c1 : Colour565) (idx : BitVec 32),
      decode (.record .bc2) bs = .ok (.blkBC2 aexp c0 c1 idx, []) ∧
      isSlice bs 0 64 aexp ∧ isSlice bs 64 16 c0 ∧ isSlice bs 80 16 c1 ∧ isSlice bs 96 32 idx ∧
      ∀ i, i < 16 → isSlice bs (4 * i) 4 (alphaNibble aexp i) ∧ isSlice bs (96 + 2 * i) 2 (colourCode idx i)

/-- A BC3 record's fields, alpha codes and colour codes are these slices of its bytes (spec/30_encoding.md section 1;
the place of an alpha code is the spec's own reading, R78 and D19: notes/assumptions/14.md). -/
def Obligations.BC3RecordFields : Prop :=
  ∀ bs : List Byte, bs.length = 16 →
    ∃ (a0 a1 : Byte) (aidx : BitVec 48) (c0 c1 : Colour565) (idx : BitVec 32),
      decode (.record .bc3) bs = .ok (.blkBC3 a0 a1 aidx c0 c1 idx, []) ∧
      isSlice bs 0 8 a0 ∧ isSlice bs 8 8 a1 ∧ isSlice bs 16 48 aidx ∧
      isSlice bs 64 16 c0 ∧ isSlice bs 80 16 c1 ∧ isSlice bs 96 32 idx ∧
      ∀ i, i < 16 → isSlice bs (16 + 3 * i) 3 (alphaCode aidx i) ∧ isSlice bs (96 + 2 * i) 2 (colourCode idx i)

/-- The list forms of packed fields put element `i` where the decoder reads texel `i`'s code
(spec/30_encoding.md R84). -/
def Obligations.ListFormsPackTheCodes : Prop :=
  ∀ (width : Nat) (ks : List Nat), ks.length = 16 → (∀ k ∈ ks, k < 2 ^ width) →
    ∀ i, i < 16 →
      (width = 2 → (colourCode (BitVec.ofNat 32 (packCodes width ks)) i).toNat = ks.getD i 0) ∧
      (width = 3 → (alphaCode (BitVec.ofNat 48 (packCodes width ks)) i).toNat = ks.getD i 0) ∧
      (width = 4 → (alphaNibble (BitVec.ofNat 64 (packCodes width ks)) i).toNat = ks.getD i 0)

/-! ## PALX and ALPHA -/

/-- The channel expansions are the two-pass formulas, and no result is cut to a byte (spec/40_endpoint_palette.md
R100, R101). -/
def Obligations.ExpansionsAreTheTwoPassFormulas : Prop :=
  (∀ v : BitVec 5, (expand5 v).toNat = ((v.toNat * 255 + 16) / 32 + (v.toNat * 255 + 16)) / 32) ∧
  (∀ v : BitVec 6, (expand6 v).toNat = ((v.toNat * 255 + 32) / 64 + (v.toNat * 255 + 32)) / 64)

/-- Both expansions are strictly increasing from 0 to 255, and differ from bit replication and from round-to-nearest at
exactly the values the spec lists (spec/40_endpoint_palette.md section 1: R102, R104). -/
def Obligations.ExpansionsAreNoOtherRescale : Prop :=
  (∀ v w : BitVec 5, v.toNat < w.toNat → (expand5 v).toNat < (expand5 w).toNat) ∧
  (∀ v w : BitVec 6, v.toNat < w.toNat → (expand6 v).toNat < (expand6 w).toNat) ∧
  (∀ v : BitVec 5, (expand5 v).toNat ≠ 8 * v.toNat + v.toNat / 4 ↔ v.toNat ∈ [3, 7, 20, 24, 25, 28, 29]) ∧
  (∀ v : BitVec 6, (expand6 v).toNat ≠ 4 * v.toNat + v.toNat / 16 ↔
    v.toNat ∈ [11, 12, 13, 14, 15, 48, 49, 50, 51, 52, 53]) ∧
  (∀ v : BitVec 5, (expand5 v).toNat ≠ (2 * 255 * v.toNat + 31) / 62 ↔ v.toNat ∈ [20, 25, 29]) ∧
  (∀ v : BitVec 6, (expand6 v).toNat ≠ (2 * 255 * v.toNat + 63) / 126 ↔ v.toNat ∈ [53])

/-- An endpoint's channels are its bits 15:11, 10:5 and 4:0, expanded. Which field is red is from general knowledge and
not in the source (spec/93_implementation_defined.md G1): notes/assumptions/13.md. -/
def Obligations.EndpointChannelsAreExpandedFields : Prop :=
  ∀ c : Colour565,
    rgb565to888 c = ⟨expand5 (c.extractLsb' 11 5), expand6 (c.extractLsb' 5 6), expand5 (c.extractLsb' 0 5)⟩

/-- Every texel of BC1 has alpha 0 or 255, 0 exactly when `C0 <= C1` and its code is 3, and then its colour is black
(spec/41_bc1_block.md R122). -/
def Obligations.BC1AlphaIsBinary : Prop :=
  ∀ (c0 c1 : Colour565) (idx : BitVec 32) (i : Nat),
    (texelBC1 c0 c1 idx i).a = (if c0.toNat ≤ c1.toNat ∧ colourCode idx i = 3 then 0 else 255) ∧
    ((texelBC1 c0 c1 idx i).a = 0 → texelBC1 c0 c1 idx i = ⟨0, 0, 0, 0⟩)

/-- In BC2 and BC3 the colour is the four-colour palette's whatever the order of the endpoints
(spec/42_bc2_block.md R143, spec/43_bc3_block.md R165). -/
def Obligations.BC2AndBC3ColourIgnoresEndpointOrder : Prop :=
  ∀ (c0 c1 : Colour565) (idx : BitVec 32) (i : Nat) (aexp : BitVec 64) (a0 a1 : Byte) (aidx : BitVec 48),
    (∃ a, texelBC2 aexp c0 c1 idx i = { csel (pal4 (rgb565to888 c0) (rgb565to888 c1)) (colourCode idx i) with a := a }) ∧
    (∃ a, texelBC3 a0 a1 aidx c0 c1 idx i =
      { csel (pal4 (rgb565to888 c0) (rgb565to888 c1)) (colourCode idx i) with a := a })

/-- The grad6 table lies between its endpoints and falls from code 2 to code 7; the grad4 table's codes 0 to 5 lie
between its endpoints, rise from code 2 to code 5, and codes 6 and 7 are 0 and 255; codes 0 and 1 are the endpoints
(spec/43_bc3_block.md R162, R163, R167; truncation is the spec's own reading, D18: notes/assumptions/14.md). -/
def Obligations.AlphaTablesAreOrderedMeans : Prop :=
  ∀ a0 a1 : Byte,
    (a1.toNat < a0.toNat →
      alphaTable a0 a1 0 = a0 ∧ alphaTable a0 a1 1 = a1 ∧
      (∀ k : BitVec 3, a1.toNat ≤ (alphaTable a0 a1 k).toNat ∧ (alphaTable a0 a1 k).toNat ≤ a0.toNat) ∧
      (∀ j k : BitVec 3, 2 ≤ j.toNat → j.toNat ≤ k.toNat →
        (alphaTable a0 a1 k).toNat ≤ (alphaTable a0 a1 j).toNat)) ∧
    (a0.toNat ≤ a1.toNat →
      alphaTable a0 a1 0 = a0 ∧ alphaTable a0 a1 1 = a1 ∧ alphaTable a0 a1 6 = 0 ∧ alphaTable a0 a1 7 = 255 ∧
      (∀ k : BitVec 3, k.toNat ≤ 5 →
        a0.toNat ≤ (alphaTable a0 a1 k).toNat ∧ (alphaTable a0 a1 k).toNat ≤ a1.toNat) ∧
      (∀ j k : BitVec 3, 2 ≤ j.toNat → j.toNat ≤ k.toNat → k.toNat ≤ 5 →
        (alphaTable a0 a1 j).toNat ≤ (alphaTable a0 a1 k).toNat))

/-- The entries of the four-colour and three-colour palettes, computed exactly on the expanded channels, and colour
select (spec/40_endpoint_palette.md R105, R106, R107). -/
def Obligations.PaletteEntriesAreExact : Prop :=
  ∀ e0 e1 : RGB,
    csel (pal4 e0 e1) 0 = ⟨e0.r, e0.g, e0.b, 255⟩ ∧ csel (pal4 e0 e1) 1 = ⟨e1.r, e1.g, e1.b, 255⟩ ∧
    (csel (pal4 e0 e1) 2).r.toNat = (2 * e0.r.toNat + e1.r.toNat) / 3 ∧
    (csel (pal4 e0 e1) 2).g.toNat = (2 * e0.g.toNat + e1.g.toNat) / 3 ∧
    (csel (pal4 e0 e1) 2).b.toNat = (2 * e0.b.toNat + e1.b.toNat) / 3 ∧ (csel (pal4 e0 e1) 2).a = 255 ∧
    (csel (pal4 e0 e1) 3).r.toNat = (e0.r.toNat + 2 * e1.r.toNat) / 3 ∧
    (csel (pal4 e0 e1) 3).g.toNat = (e0.g.toNat + 2 * e1.g.toNat) / 3 ∧
    (csel (pal4 e0 e1) 3).b.toNat = (e0.b.toNat + 2 * e1.b.toNat) / 3 ∧ (csel (pal4 e0 e1) 3).a = 255 ∧
    csel (pal3 e0 e1) 0 = ⟨e0.r, e0.g, e0.b, 255⟩ ∧ csel (pal3 e0 e1) 1 = ⟨e1.r, e1.g, e1.b, 255⟩ ∧
    (csel (pal3 e0 e1) 2).r.toNat = (e0.r.toNat + e1.r.toNat) / 2 ∧
    (csel (pal3 e0 e1) 2).g.toNat = (e0.g.toNat + e1.g.toNat) / 2 ∧
    (csel (pal3 e0 e1) 2).b.toNat = (e0.b.toNat + e1.b.toNat) / 2 ∧ (csel (pal3 e0 e1) 2).a = 255 ∧
    csel (pal3 e0 e1) 3 = ⟨0, 0, 0, 0⟩

/-- The entries of the two alpha tables (spec/43_bc3_block.md R162, R163), and the nibble written twice
(spec/42_bc2_block.md R142), which is 17 times it (derived there). That the divisions by 7 and 5 truncate is the spec's
own reading, R164 and D18: DEDUCED, notes/assumptions/14.md. -/
def Obligations.AlphaEntriesAreExact : Prop :=
  (∀ a0 a1 : Byte,
    grad6 a0 a1 0 = a0 ∧ grad6 a0 a1 1 = a1 ∧
    (∀ k, 2 ≤ k → k ≤ 7 →
      (grad6 a0 a1 (BitVec.ofNat 3 k)).toNat = ((8 - k) * a0.toNat + (k - 1) * a1.toNat) / 7) ∧
    grad4 a0 a1 0 = a0 ∧ grad4 a0 a1 1 = a1 ∧
    (∀ k, 2 ≤ k → k ≤ 5 →
      (grad4 a0 a1 (BitVec.ofNat 3 k)).toNat = ((6 - k) * a0.toNat + (k - 1) * a1.toNat) / 5) ∧
    grad4 a0 a1 6 = 0 ∧ grad4 a0 a1 7 = 255) ∧
  (∀ n : BitVec 4, expandNibble n = n ++ n ∧ (expandNibble n).toNat = 17 * n.toNat)

/-! ## Selector codes -/

/-- CSEL4.0 to CSEL4.3 always complete: the lane's texel becomes its four-colour palette entry, computed exactly, and
nothing else changes (spec/40_endpoint_palette.md R105; one lane's values in the state are the model's choice,
notes/assumptions/3.md). -/
def Obligations.FourColourCodesComplete : Prop :=
  ∀ s : State, ∀ e0 e1 : RGB, e0 = rgb565to888 s.lane.c0 → e1 = rgb565to888 s.lane.c1 →
    exec .csel4_0 s = .next { s with lane := { s.lane with texel := ⟨e0.r, e0.g, e0.b, 255⟩ } } ∧
    exec .csel4_1 s = .next { s with lane := { s.lane with texel := ⟨e1.r, e1.g, e1.b, 255⟩ } } ∧
    (∃ t : RGBA, exec .csel4_2 s = .next { s with lane := { s.lane with texel := t } } ∧
      t.r.toNat = (2 * e0.r.toNat + e1.r.toNat) / 3 ∧ t.g.toNat = (2 * e0.g.toNat + e1.g.toNat) / 3 ∧
      t.b.toNat = (2 * e0.b.toNat + e1.b.toNat) / 3 ∧ t.a = 255) ∧
    (∃ t : RGBA, exec .csel4_3 s = .next { s with lane := { s.lane with texel := t } } ∧
      t.r.toNat = (e0.r.toNat + 2 * e1.r.toNat) / 3 ∧ t.g.toNat = (e0.g.toNat + 2 * e1.g.toNat) / 3 ∧
      t.b.toNat = (e0.b.toNat + 2 * e1.b.toNat) / 3 ∧ t.a = 255)

/-- CSEL3.0 to CSEL3.3 always complete: the lane's texel becomes its three-colour palette entry, computed exactly, and
nothing else changes (spec/40_endpoint_palette.md R106; notes/assumptions/3.md). -/
def Obligations.ThreeColourCodesComplete : Prop :=
  ∀ s : State, ∀ e0 e1 : RGB, e0 = rgb565to888 s.lane.c0 → e1 = rgb565to888 s.lane.c1 →
    exec .csel3_0 s = .next { s with lane := { s.lane with texel := ⟨e0.r, e0.g, e0.b, 255⟩ } } ∧
    exec .csel3_1 s = .next { s with lane := { s.lane with texel := ⟨e1.r, e1.g, e1.b, 255⟩ } } ∧
    (∃ t : RGBA, exec .csel3_2 s = .next { s with lane := { s.lane with texel := t } } ∧
      t.r.toNat = (e0.r.toNat + e1.r.toNat) / 2 ∧ t.g.toNat = (e0.g.toNat + e1.g.toNat) / 2 ∧
      t.b.toNat = (e0.b.toNat + e1.b.toNat) / 2 ∧ t.a = 255) ∧
    exec .csel3_3 s = .next { s with lane := { s.lane with texel := ⟨0, 0, 0, 0⟩ } }

/-- AEXP always completes: the lane's alpha becomes the nibble written twice, which is 17 times it, and nothing else
changes (spec/42_bc2_block.md R142; notes/assumptions/3.md). -/
def Obligations.ExplicitAlphaCompletes : Prop :=
  ∀ (s : State) (n : BitVec 4),
    exec (.aexp n) s = .next { s with lane := { s.lane with texel := { s.lane.texel with a := n ++ n } } } ∧
    (n ++ n).toNat = 17 * n.toNat

/-- AGRAD6.0 to AGRAD6.7 always complete: the lane's alpha becomes the grad6 table's entry, and nothing else changes
(spec/43_bc3_block.md R162; a lane in the state: notes/assumptions/3.md). That the division by 7 truncates is the spec's
own reading, R164 and D18: DEDUCED, notes/assumptions/14.md. -/
def Obligations.GradSixCodesComplete : Prop :=
  ∀ s : State,
    exec .agrad6_0 s = .next { s with lane := { s.lane with texel := { s.lane.texel with a := s.lane.a0 } } } ∧
    exec .agrad6_1 s = .next { s with lane := { s.lane with texel := { s.lane.texel with a := s.lane.a1 } } } ∧
    ∀ (i : Instr) (k : Nat),
      (i, k) ∈ [(Instr.agrad6_2, 2), (.agrad6_3, 3), (.agrad6_4, 4), (.agrad6_5, 5), (.agrad6_6, 6), (.agrad6_7, 7)] →
      ∃ a : Byte, exec i s = .next { s with lane := { s.lane with texel := { s.lane.texel with a := a } } } ∧
        a.toNat = ((8 - k) * s.lane.a0.toNat + (k - 1) * s.lane.a1.toNat) / 7

/-- AGRAD4.0 to AGRAD4.7 always complete: the lane's alpha becomes the grad4 table's entry, and nothing else changes
(spec/43_bc3_block.md R163; a lane in the state: notes/assumptions/3.md). That the division by 5 truncates is the spec's
own reading, R164 and D18: DEDUCED, notes/assumptions/14.md. -/
def Obligations.GradFourCodesComplete : Prop :=
  ∀ s : State,
    exec .agrad4_0 s = .next { s with lane := { s.lane with texel := { s.lane.texel with a := s.lane.a0 } } } ∧
    exec .agrad4_1 s = .next { s with lane := { s.lane with texel := { s.lane.texel with a := s.lane.a1 } } } ∧
    (∀ (i : Instr) (k : Nat),
      (i, k) ∈ [(Instr.agrad4_2, 2), (.agrad4_3, 3), (.agrad4_4, 4), (.agrad4_5, 5)] →
      ∃ a : Byte, exec i s = .next { s with lane := { s.lane with texel := { s.lane.texel with a := a } } } ∧
        a.toNat = ((6 - k) * s.lane.a0.toNat + (k - 1) * s.lane.a1.toNat) / 5) ∧
    exec .agrad4_6 s = .next { s with lane := { s.lane with texel := { s.lane.texel with a := 0 } } } ∧
    exec .agrad4_7 s = .next { s with lane := { s.lane with texel := { s.lane.texel with a := 255 } } }

/-- The frame of the selector codes: registers, run state, both byte spaces, the environment's side and the lane's
endpoints are unchanged; an alpha code leaves the texel's colour unchanged too (spec/10_state.md R23, R24). -/
def Obligations.SelectorCodesChangeOnlyTheTexel : Prop :=
  ∀ (i : Instr) (s t : State), exec i s = .next t →
    (i ∈ colourCodes ∨ i ∈ alphaCodes ∨ ∃ n, i = .aexp n) →
    t.regs = s.regs ∧ t.run = s.run ∧ t.inMem = s.inMem ∧ t.outMem = s.outMem ∧ t.host = s.host ∧
    t.lane.c0 = s.lane.c0 ∧ t.lane.c1 = s.lane.c1 ∧ t.lane.a0 = s.lane.a0 ∧ t.lane.a1 = s.lane.a1 ∧
    (i ∉ colourCodes →
      t.lane.texel.r = s.lane.texel.r ∧ t.lane.texel.g = s.lane.texel.g ∧ t.lane.texel.b = s.lane.texel.b)

/-- A record's texel is what its own selector codes make of its endpoints: the colour code of texel `i`, decoded in the
record's mode and executed by a lane with the record's endpoints, gives the texel's colour, and the alpha code after it
the texel's alpha (spec/30_encoding.md section 3, spec/44_image_decode.md section 8). -/
def Obligations.SelectorCodesMakeTheTexels : Prop :=
  (∀ (c0 c1 : Colour565) (idx : BitVec 32) (i : Nat) (s : State),
    s.run.f = .bc1 → s.lane.c0 = c0 → s.lane.c1 = c1 →
    ∃ (j : Instr) (t : State),
      decode (codeCtx .colour s) [(colourCode idx i).setWidth 8] = .ok (j, []) ∧ exec j s = .next t ∧
      t.lane.texel = texelBC1 c0 c1 idx i) ∧
  (∀ (aexp : BitVec 64) (c0 c1 : Colour565) (idx : BitVec 32) (i : Nat) (s : State),
    s.run.f = .bc2 → s.lane.c0 = c0 → s.lane.c1 = c1 →
    ∃ (j k : Instr) (t u : State),
      decode (codeCtx .colour s) [(colourCode idx i).setWidth 8] = .ok (j, []) ∧ exec j s = .next t ∧
      decode (codeCtx .alpha t) [(alphaNibble aexp i).setWidth 8] = .ok (k, []) ∧ exec k t = .next u ∧
      u.lane.texel = texelBC2 aexp c0 c1 idx i) ∧
  (∀ (a0 a1 : Byte) (aidx : BitVec 48) (c0 c1 : Colour565) (idx : BitVec 32) (i : Nat) (s : State),
    s.run.f = .bc3 → s.lane.c0 = c0 → s.lane.c1 = c1 → s.lane.a0 = a0 → s.lane.a1 = a1 →
    ∃ (j k : Instr) (t u : State),
      decode (codeCtx .colour s) [(colourCode idx i).setWidth 8] = .ok (j, []) ∧ exec j s = .next t ∧
      decode (codeCtx .alpha t) [(alphaCode aidx i).setWidth 8] = .ok (k, []) ∧ exec k t = .next u ∧
      u.lane.texel = texelBC3 a0 a1 aidx c0 c1 idx i)

/-! ## Block operations -/

/-- BLK.BC1 completes in BUSY: its block step stores, for texel `i`, the palette entry of code `i`, from the four-colour
palette when `C0 > C1` and from the three-colour palette otherwise (spec/41_bc1_block.md R120, with the step of
spec/44_image_decode.md section 4). `OUT` is in canonical form, which every step keeps. -/
def Obligations.BlkBC1Completes : Prop :=
  ∀ (c0 c1 : Colour565) (idx : BitVec 32) (s : State), s.regs.status = .busy → Memory.wf s.outMem = true →
    ∃ t, exec (.blkBC1 c0 c1 idx) s = .next t ∧
      blockStepped
        (fun i => csel
          (if c1.toNat < c0.toNat then pal4 (rgb565to888 c0) (rgb565to888 c1)
            else pal3 (rgb565to888 c0) (rgb565to888 c1))
          (colourCode idx i)) s t

/-- BLK.BC2 completes in BUSY: its block step stores, for texel `i`, the colour of the four-colour palette's entry of
code `i` with the alpha of nibble `i` (spec/42_bc2_block.md R140, with the step of spec/44_image_decode.md
section 4). -/
def Obligations.BlkBC2Completes : Prop :=
  ∀ (aexp : BitVec 64) (c0 c1 : Colour565) (idx : BitVec 32) (s : State),
    s.regs.status = .busy → Memory.wf s.outMem = true →
    ∃ t, exec (.blkBC2 aexp c0 c1 idx) s = .next t ∧
      blockStepped
        (fun i => { csel (pal4 (rgb565to888 c0) (rgb565to888 c1)) (colourCode idx i) with
          a := alphaNibble aexp i ++ alphaNibble aexp i }) s t

/-- BLK.BC3 completes in BUSY: its block step stores, for texel `i`, the colour of the four-colour palette's entry of
code `i` with the alpha table's entry of alpha code `i`, the grad6 table when `A0 > A1` and the grad4 table otherwise
(spec/43_bc3_block.md R160, with the step of spec/44_image_decode.md section 4). The place of an alpha code and the
truncating divisions are the spec's own readings, D19 and D18: DEDUCED, notes/assumptions/14.md. -/
def Obligations.BlkBC3Completes : Prop :=
  ∀ (a0 a1 : Byte) (aidx : BitVec 48) (c0 c1 : Colour565) (idx : BitVec 32) (s : State),
    s.regs.status = .busy → Memory.wf s.outMem = true →
    ∃ t, exec (.blkBC3 a0 a1 aidx c0 c1 idx) s = .next t ∧
      blockStepped
        (fun i => { csel (pal4 (rgb565to888 c0) (rgb565to888 c1)) (colourCode idx i) with
          a := if a1.toNat < a0.toNat then grad6 a0 a1 (alphaCode aidx i) else grad4 a0 a1 (alphaCode aidx i) }) s t

/-- The frame of the three block operations: `ERR`, the configuration registers, the latches and derived constants,
`IN`, the lane and the environment's side are unchanged, and so is every byte of `OUT` outside the enabled texels'
stores; outside BUSY nothing changes at all (spec/44_image_decode.md R186, R191; the last is the model's way to have no
enabled step, notes/assumptions/17.md). -/
def Obligations.BlockOperationsFrame : Prop :=
  ∀ (i : Instr) (s t : State), exec i s = .next t →
    ((∃ c0 c1 idx, i = .blkBC1 c0 c1 idx) ∨ (∃ aexp c0 c1 idx, i = .blkBC2 aexp c0 c1 idx) ∨
      (∃ a0 a1 aidx c0 c1 idx, i = .blkBC3 a0 a1 aidx c0 c1 idx)) →
    t.regs = { s.regs with status := t.regs.status } ∧
    t.run = { s.run with cur := t.run.cur, blkX := t.run.blkX, blkY := t.run.blkY } ∧
    t.inMem = s.inMem ∧ t.lane = s.lane ∧ t.host = s.host ∧
    (∀ a, (∀ n, n < 16 → ∀ addr, xlat s.run.blkX s.run.blkY n s.run.w s.run.h = some addr →
      a < addr ∨ addr + 4 ≤ a) → Memory.read t.outMem a = Memory.read s.outMem a) ∧
    (s.regs.status ≠ .busy → t = s)

/-! ## XLAT and the block grid -/

/-- XLAT and the edge clip: texel `(row, col)` of block `(bx, by)` goes to the four bytes of pixel
`(4*bx + col, 4*by + row)` when that pixel is in the image, and nowhere otherwise (spec/44_image_decode.md R188). -/
def Obligations.XlatAddressesThePixel : Prop :=
  ∀ (bx by' row col : Nat) (w h : Word), row < 4 → col < 4 →
    xlat bx by' (4 * row + col) w h =
      if 4 * bx + col < w.toNat ∧ 4 * by' + row < h.toNat then
        some (4 * ((4 * by' + row) * w.toNat + (4 * bx + col)))
      else none

/-- Coverage: every pixel of the image is the target of exactly one texel of exactly one block of the grid, texel
`(y mod 4, x mod 4)` of block `(x/4, y/4)` (spec/44_image_decode.md R190). -/
def Obligations.EveryPixelIsStoredExactlyOnce : Prop :=
  ∀ (w h : Word) (x y : Nat), x < w.toNat → y < h.toNat →
    ∀ bx by' i : Nat, i < 16 →
      ((bx < ceil4 w.toNat ∧ by' < ceil4 h.toNat ∧ xlat bx by' i w h = some (4 * (y * w.toNat + x))) ↔
        (bx = x / 4 ∧ by' = y / 4 ∧ i = 4 * (y % 4) + x % 4))

/-- Edge clip: every block of the grid stores at least one texel, and only blocks of the last column or the last row
have clipped texels (spec/44_image_decode.md R189). -/
def Obligations.OnlyEdgeBlocksAreClipped : Prop :=
  ∀ (w h : Word) (bx by' : Nat), bx < ceil4 w.toNat → by' < ceil4 h.toNat →
    (∃ i, i < 16 ∧ (xlat bx by' i w h).isSome = true) ∧
    (bx + 1 < ceil4 w.toNat → by' + 1 < ceil4 h.toNat → ∀ i, i < 16 → (xlat bx by' i w h).isSome = true)

/-- A run that passes START's checks fits: `REQ < 2^32`, fewer than `2^29` blocks, fewer than `2^33` pixels, every
output offset below `2^35` (spec/44_image_decode.md R183). -/
def Obligations.AcceptedRunsFit : Prop :=
  ∀ (f : Format) (w h l : Word) (b : Nat), validate f w h l = .ok b →
    requiredLength w h b < 2 ^ 32 ∧ ceil4 w.toNat * ceil4 h.toNat < 2 ^ 29 ∧
    w.toNat * h.toNat < 2 ^ 33 ∧ imageBytes w h < 2 ^ 35

/-! ## START -/

/-- START in BUSY is ignored: nothing changes (spec/44_image_decode.md section 3). -/
def Obligations.StartIsIgnoredWhileBusy : Prop :=
  ∀ s : State, s.regs.status = .busy → exec .start s = .next s

/-- START begins a run: outside BUSY, with a supported format, non-zero dimensions, `LEN >= REQ` and buffers that hold
the run, clear of each other and of the register file (the condition of spec/20_memory.md R50; where the state keeps
them: notes/assumptions/11.md, 20.md), it latches the four registers, clears `ERR`, sets up grid, block size
and cursor, and enters BUSY; nothing else the spec names changes (spec/44_image_decode.md section 3, R184). -/
def Obligations.StartBeginsARun : Prop :=
  ∀ (s : State) (f : Format) (b : Nat), s.regs.status ≠ .busy → (s.regs.format, f, b) ∈ formatRows →
    s.regs.width ≠ 0 → s.regs.height ≠ 0 →
    (s.regs.width.toNat + 3) / 4 * ((s.regs.height.toNat + 3) / 4) * b ≤ s.regs.len.toNat →
    s.host.fitRun s.regs.width s.regs.height s.regs.len = true →
    exec .start s = .next
      { s with
        regs := { s.regs with status := .busy, err := none }
        run :=
          { f := f, w := s.regs.width, h := s.regs.height, l := s.regs.len,
            nbx := (s.regs.width.toNat + 3) / 4, nby := (s.regs.height.toNat + 3) / 4, bsz := b,
            cur := 0, blkX := 0, blkY := 0 }
        host := { s.host with seen := false, outBefore := s.outMem } }

/-- START's three checks and their order: an unsupported format first, then a zero dimension, then a buffer that is too
short; exactly one error is reported, with `STATUS` ERROR (spec/44_image_decode.md R185, R212). The order is the spec's
decision D8, where U2 would admit any cause that holds: DESIGN CHOICE, notes/assumptions/18.md. -/
def Obligations.StartReportsTheFirstError : Prop :=
  ∀ s : State, s.regs.status ≠ .busy →
    (s.regs.format ≠ 1 → s.regs.format ≠ 2 → s.regs.format ≠ 3 →
      ∃ t, exec .start s = .next t ∧ t.regs.status = .error ∧ t.regs.err = some .unsupportedFormat) ∧
    (∀ (f : Format) (b : Nat), (s.regs.format, f, b) ∈ formatRows →
      (s.regs.width = 0 ∨ s.regs.height = 0 →
        ∃ t, exec .start s = .next t ∧ t.regs.status = .error ∧ t.regs.err = some .invalidDimensions) ∧
      (s.regs.width ≠ 0 → s.regs.height ≠ 0 →
        s.regs.len.toNat < (s.regs.width.toNat + 3) / 4 * ((s.regs.height.toNat + 3) / 4) * b →
        ∃ t, exec .start s = .next t ∧ t.regs.status = .error ∧ t.regs.err = some .unexpectedEndOfData))

/-- Taking an error changes `ERR` and `STATUS`, leaves the latches as START copied them, does not read or write a byte
of `IN` or `OUT`, and changes nothing else the spec names but the six run-state registers that become unspecified
(spec/60_exceptions.md R215). -/
def Obligations.ErrorEntryChangesOnlyErrAndStatus : Prop :=
  ∀ (s : State) (e : Err), s.regs.status ≠ .busy →
    validate (Format.ofTag s.regs.format) s.regs.width s.regs.height s.regs.len = .error e →
    ∃ t, exec .start s = .next t ∧ t.regs = { s.regs with status := .error, err := some e } ∧
      t.run.f = Format.ofTag s.regs.format ∧ t.run.w = s.regs.width ∧ t.run.h = s.regs.height ∧
      t.run.l = s.regs.len ∧ t.inMem = s.inMem ∧ t.outMem = s.outMem ∧ t.lane = s.lane ∧
      t.host.agenda = s.host.agenda ∧ t.host.rdata = s.host.rdata ∧ t.host.bufs = s.host.bufs ∧
      t.host.regFile = s.host.regFile ∧ t.host.outBefore = s.host.outBefore

/-- A width or height with bit 31 set is no invalid dimension: with a supported format and non-zero dimensions the run
fails with UnexpectedEndOfData (spec/60_exceptions.md R211, R213). This code is the spec's decision D5 and C1, where U3
would admit InvalidDimensions too: DESIGN CHOICE, notes/assumptions/18.md. -/
def Obligations.HugeDimensionsEndAsTooShort : Prop :=
  ∀ (s : State) (f : Format) (b : Nat), s.regs.status ≠ .busy → (s.regs.format, f, b) ∈ formatRows →
    s.regs.width ≠ 0 → s.regs.height ≠ 0 → (2 ^ 31 ≤ s.regs.width.toNat ∨ 2 ^ 31 ≤ s.regs.height.toNat) →
    ∃ t, exec .start s = .next t ∧ t.regs.status = .error ∧ t.regs.err = some .unexpectedEndOfData

/-- A START that would begin a run in buffers that are too small, overlap each other, or have a register inside them is
refused by name: "a model refuses such a launch" (spec/20_memory.md R50, spec/70_reset_and_hazards.md R246; where the
state keeps buffers and registers: notes/assumptions/11.md, 20.md). -/
def Obligations.LaunchWithoutBuffersIsRefused : Prop :=
  ∀ (s : State) (b : Nat), s.regs.status ≠ .busy →
    validate (Format.ofTag s.regs.format) s.regs.width s.regs.height s.regs.len = .ok b →
    (s.host.bufs.inSize < s.regs.len.toNat ∨
      s.host.bufs.outSize < 4 * (s.regs.width.toNat * s.regs.height.toNat) ∨
      (s.host.bufs.outBase < s.host.bufs.inBase + s.regs.len.toNat ∧
        s.host.bufs.inBase < s.host.bufs.outBase + 4 * (s.regs.width.toNat * s.regs.height.toNat)) ∨
      ∃ idx, idx ≤ 6 ∧
        ((s.host.bufs.inBase < s.host.regFile.base + idx * s.host.regFile.stride + 4 ∧
            s.host.regFile.base + idx * s.host.regFile.stride < s.host.bufs.inBase + s.regs.len.toNat) ∨
          (s.host.bufs.outBase < s.host.regFile.base + idx * s.host.regFile.stride + 4 ∧
            s.host.regFile.base + idx * s.host.regFile.stride <
              s.host.bufs.outBase + 4 * (s.regs.width.toNat * s.regs.height.toNat)))) →
    exec .start s = .refused .launchNotAdmitted

/-- The frame of START: the configuration registers, both byte spaces, the lane, and of the environment's side the
agenda, the last value read, the buffers and the registers' place, are unchanged; every byte of `OUT` reads as before
(spec/10_state.md R11, spec/60_exceptions.md R216). -/
def Obligations.StartFrame : Prop :=
  ∀ s t : State, exec .start s = .next t →
    t.regs.format = s.regs.format ∧ t.regs.width = s.regs.width ∧ t.regs.height = s.regs.height ∧
    t.regs.len = s.regs.len ∧ t.inMem = s.inMem ∧ t.outMem = s.outMem ∧ t.lane = s.lane ∧
    t.host.agenda = s.host.agenda ∧ t.host.rdata = s.host.rdata ∧ t.host.bufs = s.host.bufs ∧
    t.host.regFile = s.host.regFile

/-! ## The sequencer -/

/-- A step in BUSY with `DEC`'s turn next runs the record at the cursor: what its bytes decode to under the latched
format, on this state with that turn taken (spec/44_image_decode.md R186). -/
def Obligations.StepRunsTheRecordAtTheCursor : Prop :=
  ∀ (s : State) (i : Instr) (rest : List Byte), s.regs.status = .busy →
    decode (.record s.run.f) (fetchBytes s.inMem s.run.cur s.run.bsz) = .ok (i, rest) →
    (s.host.agenda = [] → step s = exec i s) ∧
    (∀ more, s.host.agenda = .dec :: more → step s = exec i (s.withAgenda more))

/-- A host write of `CTRL` with bit 0 = 1 runs START, whatever its other bits; with bit 0 = 0 it does nothing
(spec/10_state.md R13). -/
def Obligations.StepRunsStartOnAWriteOfCtrl : Prop :=
  ∀ (s : State) (v : Word) (more : List Event), s.host.agenda = .host (.write 0 v) :: more →
    (v.getLsbD 0 = true → step s = exec .start (s.withAgenda more)) ∧
    (v.getLsbD 0 = false → step s = .next (s.withAgenda more))

/-- A step with an access of the host next that is no write of `CTRL` makes exactly that access, the reset event among
them; an access by bus address is the access to the register that lies there, a write of `CTRL` included, and one to an
address where no register lies is refused (spec/00_scope.md section 5 and R6, spec/10_state.md R12; the agenda:
notes/assumptions/2.md; bus addresses: notes/assumptions/20.md). -/
def Obligations.StepMakesEveryOtherHostAccess : Prop :=
  ∀ (s : State) (more : List Event),
    (∀ c, s.host.agenda = .host c :: more → (∀ v, c ≠ .write 0 v) → step s = hostStep c (s.withAgenda more)) ∧
    (∀ idx, s.host.regFile.stride ≠ 0 → idx ≤ 6 →
      (∀ v, s.host.agenda = .bus (.write (s.host.regFile.base + idx * s.host.regFile.stride) v) :: more →
        step s = step (s.withAgenda (.host (.write idx v) :: more))) ∧
      (s.host.agenda = .bus (.read (s.host.regFile.base + idx * s.host.regFile.stride)) :: more →
        step s = step (s.withAgenda (.host (.read idx) :: more)))) ∧
    (∀ addr,
      s.host.regFile.stride = 0 ∨ (∀ idx, idx ≤ 6 → addr ≠ s.host.regFile.base + idx * s.host.regFile.stride) →
      (∀ v, s.host.agenda = .bus (.write addr v) :: more → step s = .refused (.noRegisterAt addr)) ∧
      (s.host.agenda = .bus (.read addr) :: more → step s = .refused (.noRegisterAt addr)))

/-- A step whose next event is a lane's selector code runs what the code decodes to in the lane's context, on this
state with that event taken (spec/30_encoding.md section 3; notes/assumptions/3.md). -/
def Obligations.StepRunsTheSelectorCode : Prop :=
  ∀ (s : State) (k : CodeKind) (b : Byte) (more : List Event) (i : Instr) (rest : List Byte),
    s.host.agenda = .code k b :: more → decode (codeCtx k s) [b] = .ok (i, rest) →
    step s = exec i (s.withAgenda more)

/-- Outside BUSY `DEC` has no step: with nothing else to come, the state stays as it is (spec/44_image_decode.md
section 6; staying is the model's way to have no enabled step, notes/assumptions/2.md). -/
def Obligations.NothingMovesOutsideBusy : Prop :=
  ∀ s : State, s.regs.status ≠ .busy → s.host.agenda = [] → step s = .next s

/-- In BUSY `DEC` always has a step that completes: it neither faults nor waits, and `STATUS` becomes BUSY or DONE,
never ERROR (spec/60_exceptions.md section 5, R222). -/
def Obligations.BusyAlwaysAdvances : Prop :=
  ∀ s : State, s.Inv → s.regs.status = .busy → s.host.agenda = [] →
    ∃ t, step s = .next t ∧ t.run.cur = s.run.cur + s.run.bsz ∧
      (t.regs.status = .busy ∨ t.regs.status = .done)

/-! ## The whole machine -/

/-- `STATUS` changes only so: the reset event makes it IDLE, a START outside BUSY (the host's next access writes `CTRL`
with bit 0 = 1, by number or by bus address) makes it BUSY or ERROR, and a block step, on `DEC`'s turn, that leaves
`BY = NBY` turns BUSY into DONE (spec/10_state.md R15; the agenda: notes/assumptions/2.md). -/
def Obligations.StatusTransitions : Prop :=
  ∀ s t : State, step s = .next t →
    t.regs.status = s.regs.status ∨
    (t.regs.status = .idle ∧ ∃ more, s.host.agenda = .host .reset :: more) ∨
    (s.regs.status ≠ .busy ∧ (t.regs.status = .busy ∨ t.regs.status = .error) ∧
      ∃ v, nextAccess s = some (.write 0 v) ∧ v.getLsbD 0 = true) ∨
    (s.regs.status = .busy ∧ t.regs.status = .done ∧ t.run.blkY = t.run.nby ∧
      (s.host.agenda = [] ∨ ∃ more, s.host.agenda = .dec :: more))

/-- `ERR` changes only at START (the host's next access writes `CTRL` with bit 0 = 1, by number or by bus address) and
at the reset event (spec/10_state.md R16; the agenda: notes/assumptions/2.md). -/
def Obligations.ErrIsWrittenOnlyAtStartOrReset : Prop :=
  ∀ s t : State, step s = .next t → t.regs.err ≠ s.regs.err →
    (∃ more, s.host.agenda = .host .reset :: more) ∨
    (s.regs.status ≠ .busy ∧ ∃ v, nextAccess s = some (.write 0 v) ∧ v.getLsbD 0 = true)

/-- No instruction writes a byte of `IN`, a byte of `OUT` at or beyond `4*W*H`, or a configuration register
(spec/20_memory.md R48, R45, spec/10_state.md R11). -/
def Obligations.InstructionsWriteOnlyTheImage : Prop :=
  ∀ (i : Instr) (s t : State), exec i s = .next t →
    t.inMem = s.inMem ∧
    (∀ a, 4 * (s.run.w.toNat * s.run.h.toNat) ≤ a → Memory.read t.outMem a = Memory.read s.outMem a) ∧
    t.regs.format = s.regs.format ∧ t.regs.width = s.regs.width ∧ t.regs.height = s.regs.height ∧
    t.regs.len = s.regs.len

/-- During a run, whatever `DEC` or the host does but the reset event, the latched configuration and the derived
constants do not change (spec/10_state.md R20, spec/70_reset_and_hazards.md R245). -/
def Obligations.LatchesHoldDuringARun : Prop :=
  ∀ s t : State, s.regs.status = .busy → step s = .next t → (∀ more, s.host.agenda ≠ .host .reset :: more) →
    t.run.f = s.run.f ∧ t.run.w = s.run.w ∧ t.run.h = s.run.h ∧ t.run.l = s.run.l ∧
    t.run.nbx = s.run.nbx ∧ t.run.nby = s.run.nby ∧ t.run.bsz = s.run.bsz

/-- The state after reset meets the invariant. -/
def Obligations.ResetMeetsTheInvariant : Prop := State.reset.Inv ∧ PartialImage State.reset

/-- THE INVARIANT: every step from a state that meets it ends in one that does: the byte spaces stay canonical, and what
`STATUS` says stays true of `ERR`, the cursor, the coordinates and the buffers (spec/10_state.md R15, R16, R21;
spec/44_image_decode.md R187). -/
def Obligations.EveryStepKeepsTheInvariant : Prop :=
  ∀ s t : State, s.Inv → step s = .next t → t.Inv

/-- The partial image: while a run is in progress, after every step of any agent, the bytes of the decoded blocks are
the image's and every other byte of the image is as before the run (spec/44_image_decode.md R186, R187, R190). -/
def Obligations.EveryStepKeepsThePartialImage : Prop :=
  ∀ s t : State, s.Inv → PartialImage s → step s = .next t → PartialImage t

/-- During a run the cursor stands at a whole record inside the input (spec/10_state.md R21, spec/20_memory.md R44,
R47). -/
def Obligations.CursorStaysInTheInput : Prop :=
  ∀ s : State, s.Inv → s.regs.status = .busy →
    s.run.bsz ∣ s.run.cur ∧ s.run.cur + s.run.bsz ≤ s.run.req ∧ s.run.req ≤ s.run.l.toNat ∧
    s.run.cur = (s.run.blkY * s.run.nbx + s.run.blkX) * s.run.bsz

/-- From any moment of a run that is left to `DEC`, exactly the remaining blocks' steps lead to DONE with the whole
image in `OUT`, `CUR = REQ` (spec/44_image_decode.md R191, R192) and no byte outside the image changed
(spec/20_memory.md R48). The agenda is the model's: notes/assumptions/2.md. -/
def Obligations.RunEndsWithTheImage : Prop :=
  ∀ s : State, s.Inv → PartialImage s → s.regs.status = .busy → s.host.agenda = [] →
    ∃ t, Host.Core.run core (s.run.nbx * s.run.nby - s.run.blocksDone) s = .next t ∧
      t.regs.status = .done ∧ t.regs.err = none ∧ t.run.cur = s.run.req ∧
      t.run.f = s.run.f ∧ t.run.w = s.run.w ∧ t.run.h = s.run.h ∧ holdsImage s.inMem t ∧
      ∀ a, imageBytes s.run.w s.run.h ≤ a → Memory.read t.outMem a = Memory.read s.outMem a

/-- THE CONTRACT: from any state outside BUSY, START and then `NBX*NBY` block steps compute `decode` of the buffer, the
dimensions and the format: DONE with exactly its pixels in `OUT`, or at once ERROR with its error and `OUT` unchanged
(spec/00_scope.md R4). Premises that are the model's: the canonical form of the byte spaces, a host with nothing to come
(notes/assumptions/2.md), and, for a run that proceeds only, buffers that hold it (notes/assumptions/11.md, 20.md). -/
def Obligations.StartComputesDecode : Prop :=
  ∀ s : State, memoriesSound s → s.regs.status ≠ .busy → s.host.agenda = [] →
    (∀ e, decodeImage s.inMem s.regs.len s.regs.width s.regs.height (Format.ofTag s.regs.format) = .error e →
      ∃ t, exec .start s = .next t ∧ t.regs.status = .error ∧ t.regs.err = some e ∧ t.outMem = s.outMem) ∧
    (s.host.fitRun s.regs.width s.regs.height s.regs.len = true →
      ∀ px, decodeImage s.inMem s.regs.len s.regs.width s.regs.height (Format.ofTag s.regs.format) = .ok px →
      px.length = s.regs.width.toNat * s.regs.height.toNat ∧
      ∃ t u, exec .start s = .next t ∧
        Host.Core.run core
          ((s.regs.width.toNat + 3) / 4 * ((s.regs.height.toNat + 3) / 4)) t = .next u ∧
        u.regs.status = .done ∧ u.regs.err = none ∧
        ∀ p, p < s.regs.width.toNat * s.regs.height.toNat →
          ∃ v : RGBA, px[p]? = some (some v) ∧ ∀ c, c < 4 → Memory.read u.outMem (4 * p + c) = channel v c)

/-! ## The host's side -/

/-- Host access to registers: a read of a configuration register returns the last value written, `CTRL` reads 0, a
write of `STATUS` or `ERR` changes nothing, no write changes the run or the memories, and a number outside 0 to 6 is
refused (spec/10_state.md R12). -/
def Obligations.HostRegisterAccess : Prop :=
  ∀ (s : State) (v : Word),
    (∀ idx, 3 ≤ idx → idx ≤ 6 →
      ∃ t u, hostStep (.write idx v) s = .next t ∧ hostStep (.read idx) t = .next u ∧ u.host.rdata = v ∧
        t.run = s.run ∧ t.inMem = s.inMem ∧ t.outMem = s.outMem ∧ t.host = s.host ∧ t.lane = s.lane ∧
        t.regs.status = s.regs.status ∧ t.regs.err = s.regs.err ∧
        ∀ j, j ≤ 6 → j ≠ idx → regRead t.regs j = regRead s.regs j) ∧
    (∃ u, hostStep (.read 0) s = .next u ∧ u.host.rdata = 0) ∧
    (∀ idx, idx = 1 ∨ idx = 2 → hostStep (.write idx v) s = .next s) ∧
    (∀ idx, 7 ≤ idx →
      hostStep (.read idx) s = .refused (.noSuchRegister idx) ∧
      hostStep (.write idx v) s = .refused (.noSuchRegister idx))

/-- What `STATUS` and `ERR` read as: the codes of the spec's tables, every reserved bit 0 (spec/10_state.md R11,
spec/60_exceptions.md R210). -/
def Obligations.StatusAndErrReadTheirCodes : Prop :=
  ∀ s : State, ∃ t u, hostStep (.read 1) s = .next t ∧ hostStep (.read 2) s = .next u ∧
    (s.regs.status = .idle → t.host.rdata = 0) ∧ (s.regs.status = .busy → t.host.rdata = 1) ∧
    (s.regs.status = .done → t.host.rdata = 2) ∧ (s.regs.status = .error → t.host.rdata = 3) ∧
    (s.regs.err = none → u.host.rdata = 0) ∧ (s.regs.err = some .unexpectedEndOfData → u.host.rdata = 1) ∧
    (s.regs.err = some .unsupportedFormat → u.host.rdata = 2) ∧
    (s.regs.err = some .invalidDimensions → u.host.rdata = 3)

/-- The host's accesses to the bytes and buffers. A byte outside the buffers does not exist: a fault. A write of a byte
a run owns is refused: in BUSY a byte of `IN` below `REQ`; in BUSY, and in DONE until `STATUS` is read as DONE, a byte
of `OUT` below `4*W*H`. Every other write is made, every read of `IN` and every read of a byte of `OUT` that no run owns
gives the byte, and other buffers may be provided outside BUSY (spec/20_memory.md R46, R56,
spec/70_reset_and_hazards.md R243, R244, R246, R250). What is refused, what the buffers are, when a run stops owning its
bytes and what providing buffers leaves in them are the model's choice: notes/assumptions/9.md, 10.md, 11.md, 22.md,
23.md. -/
def Obligations.HostWritesToARunsBytesAreRefused : Prop :=
  ∀ (s : State) (a : Nat) (b : Byte),
    (s.host.bufs.inSize ≤ a →
      hostStep (.writeIn a b) s = .fault (.outsideBuffer a) ∧ hostStep (.readIn a) s = .fault (.outsideBuffer a)) ∧
    (a < s.host.bufs.inSize →
      (s.regs.status = .busy ∧ a < s.run.req → hostStep (.writeIn a b) s = .refused .hostRace) ∧
      (s.regs.status ≠ .busy ∨ s.run.req ≤ a →
        hostStep (.writeIn a b) s = .next { s with inMem := Memory.write s.inMem a b }) ∧
      hostStep (.readIn a) s =
        .next { s with host := { s.host with rdata := (Memory.read s.inMem a).setWidth 32 } }) ∧
    (s.host.bufs.outSize ≤ a →
      hostStep (.writeOut a b) s = .fault (.outsideBuffer a) ∧ hostStep (.readOut a) s = .fault (.outsideBuffer a)) ∧
    (a < s.host.bufs.outSize →
      ((s.regs.status = .busy ∨ (s.regs.status = .done ∧ s.host.seen = false)) ∧
          a < 4 * (s.run.w.toNat * s.run.h.toNat) →
        hostStep (.writeOut a b) s = .refused .hostRace) ∧
      ((s.regs.status ≠ .busy ∧ (s.regs.status = .done → s.host.seen = true)) ∨
          4 * (s.run.w.toNat * s.run.h.toNat) ≤ a →
        hostStep (.writeOut a b) s = .next { s with outMem := Memory.write s.outMem a b } ∧
        hostStep (.readOut a) s =
          .next { s with host := { s.host with rdata := (Memory.read s.outMem a).setWidth 32 } })) ∧
    (s.regs.status = .busy → ∀ p, hostStep (.provide p) s = .refused .hostRace) ∧
    (s.regs.status ≠ .busy → ∀ p, hostStep (.provide p) s = .next { s with host := { s.host with bufs := p } })

/-- What the host sees of `OUT`: after it has read `STATUS` as DONE, the bytes that are there; during a run, of each
byte of the image, the value from before the run or the run's own, and no more is known (spec/20_memory.md R51, R56;
the choice is free, notes/assumptions/9.md). -/
def Obligations.HostViewOfTheOutput : Prop :=
  ∀ (s : State) (a : Nat), a < s.host.bufs.outSize →
    (s.regs.status = .done → ∃ t u, hostStep (.read 1) s = .next t ∧ hostStep (.readOut a) t = .next u ∧
      u.host.rdata = (Memory.read s.outMem a).setWidth 32) ∧
    (s.Inv → s.regs.status = .busy → a < imageBytes s.run.w s.run.h →
      ∃ u, hostStep (.readOut a) s = .next u ∧
        (u.host.rdata = (Memory.read s.host.outBefore a).setWidth 32 ∨
          some u.host.rdata = (imageByte s.inMem s.run.f s.run.w a).map fun b => b.setWidth 32))

/-- The reset event: registers as after reset, `IN` untouched; outside BUSY `OUT` untouched; during BUSY the run is
abandoned, every byte of its image is either from before the run or the run's own, and every other byte is untouched
(spec/70_reset_and_hazards.md R240, R241; the choice is free, notes/assumptions/8.md). -/
def Obligations.ResetEventAtAnyTime : Prop :=
  ∀ s : State, s.Inv →
    ∃ t, hostStep .reset s = .next t ∧ t.regs = State.reset.regs ∧ t.inMem = s.inMem ∧
      (s.regs.status ≠ .busy → t.outMem = s.outMem) ∧
      (s.regs.status = .busy →
        (∀ a, a < imageBytes s.run.w s.run.h →
          Memory.read t.outMem a = Memory.read s.host.outBefore a ∨
          some (Memory.read t.outMem a) = imageByte s.inMem s.run.f s.run.w a) ∧
        (∀ a, imageBytes s.run.w s.run.h ≤ a → Memory.read t.outMem a = Memory.read s.outMem a))

/-- After reset every register has the value the spec gives it, and a START then fails with UnsupportedFormat and
writes nothing (spec/10_state.md R27). The dimensions are wrong there too, so which error it is rests on the order of
the checks, the spec's decision D8: DESIGN CHOICE, notes/assumptions/18.md. -/
def Obligations.ResetStateCannotStart : Prop :=
  State.reset.regs = ⟨.idle, none, 0, 0, 0, 0⟩ ∧
  ∃ t, exec .start State.reset = .next t ∧ t.regs.status = .error ∧ t.regs.err = some .unsupportedFormat ∧
    t.outMem = State.reset.outMem
end

