-- ==== Sys2Proof/Laws/Memory.lean ====
section
/-! SUPPORT. The laws of the byte spaces: read after write, and that every write keeps the canonical form. -/

namespace Sys2Proof.Laws

open Sys2Proof.Machine

@[simp] theorem read_nil (a : Nat) : Memory.read [] a = Config.unwritten := rfl

/-- In canonical form no entry lies below the bound, so a byte below it is unwritten. -/
theorem read_below (m : Memory) (lo a : Nat) (h : Memory.wfFrom lo m = true) (ha : a < lo) :
    Memory.read m a = Config.unwritten := by
  induction m generalizing lo with
  | nil => rfl
  | cons e rest ih =>
    obtain ⟨k, b⟩ := e
    simp only [Memory.wfFrom, Bool.and_eq_true, decide_eq_true_eq] at h
    have hne : a ≠ k := by omega
    simp only [Memory.read, hne, if_false]
    exact ih (k + 1) h.2 (by omega)

/-- A lower bound may be lowered. -/
theorem wfFrom_mono (m : Memory) (lo lo' : Nat) (h : Memory.wfFrom lo m = true) (hl : lo' ≤ lo) :
    Memory.wfFrom lo' m = true := by
  cases m with
  | nil => rfl
  | cons e rest =>
    obtain ⟨k, b⟩ := e
    simp only [Memory.wfFrom, Bool.and_eq_true, decide_eq_true_eq] at h ⊢
    exact ⟨⟨by omega, h.1.2⟩, h.2⟩

/-- A write at or above the bound keeps the canonical form from that bound on. -/
theorem wfFrom_write (m : Memory) (lo a : Nat) (v : Byte) (h : Memory.wfFrom lo m = true) (ha : lo ≤ a) :
    Memory.wfFrom lo (Memory.write m a v) = true := by
  induction m generalizing lo with
  | nil =>
    by_cases hv : v = Config.unwritten
    · simp [Memory.write, hv, Memory.wfFrom]
    · simp [Memory.write, hv, Memory.wfFrom, ha]
  | cons e rest ih =>
    obtain ⟨k, b⟩ := e
    have h' := h
    simp only [Memory.wfFrom, Bool.and_eq_true, decide_eq_true_eq] at h'
    obtain ⟨⟨hk, hb⟩, hr⟩ := h'
    unfold Memory.write
    split
    · split
      · exact h
      · rename_i hlt hv
        simp only [Memory.wfFrom, Bool.and_eq_true, decide_eq_true_eq]
        exact ⟨⟨ha, hv⟩, ⟨by omega, hb⟩, hr⟩
    · split
      · rename_i hlt heq
        split
        · exact wfFrom_mono rest (k + 1) lo hr (by omega)
        · rename_i hv
          simp only [Memory.wfFrom, Bool.and_eq_true, decide_eq_true_eq]
          exact ⟨⟨ha, hv⟩, heq ▸ hr⟩
      · simp only [Memory.wfFrom, Bool.and_eq_true, decide_eq_true_eq]
        exact ⟨⟨hk, hb⟩, ih (k + 1) hr (by omega)⟩

/-- Every write of a byte keeps the canonical form. -/
theorem wf_write (m : Memory) (a : Nat) (v : Byte) (h : Memory.wf m = true) : Memory.wf (Memory.write m a v) = true :=
  wfFrom_write m 0 a v h (Nat.zero_le a)

/-- A write leaves every other byte as it was, whatever the memory's form. -/
@[simp] theorem read_write_other (m : Memory) (a b : Nat) (v : Byte) (h : b ≠ a) :
    Memory.read (Memory.write m a v) b = Memory.read m b := by
  induction m with
  | nil =>
    unfold Memory.write
    split
    · rfl
    · simp [Memory.read, h]
  | cons e rest ih =>
    obtain ⟨k, w⟩ := e
    unfold Memory.write
    split
    · split
      · rfl
      · simp [Memory.read, h]
    · split
      · rename_i heq
        split
        · simp [Memory.read, ← heq, h]
        · simp [Memory.read, ← heq, h]
      · simp only [Memory.read, ih]

/-- A read after a write to the same offset gives the value written (spec/20_memory.md R46). -/
theorem readFrom_write_same (m : Memory) (lo a : Nat) (v : Byte) (h : Memory.wfFrom lo m = true) (ha : lo ≤ a) :
    Memory.read (Memory.write m a v) a = v := by
  induction m generalizing lo with
  | nil =>
    unfold Memory.write
    split
    · rename_i hv; simp [hv]
    · simp [Memory.read]
  | cons e rest ih =>
    obtain ⟨k, w⟩ := e
    have h' := h
    simp only [Memory.wfFrom, Bool.and_eq_true, decide_eq_true_eq] at h'
    obtain ⟨⟨hk, hb⟩, hr⟩ := h'
    unfold Memory.write
    split
    · rename_i hlt
      split
      · rename_i hv
        have hne : a ≠ k := by omega
        simp only [Memory.read, hne, if_false, hv]
        exact read_below rest (k + 1) a hr (by omega)
      · simp [Memory.read]
    · split
      · rename_i heq
        split
        · rename_i hv
          rw [hv]
          exact read_below rest (k + 1) a hr (by omega)
        · simp [Memory.read]
      · rename_i hlt hne
        simp only [Memory.read, hne, if_false]
        exact ih (k + 1) hr (by omega)

/-- A read after a write to the same offset, for a memory in canonical form. -/
theorem read_write_same (m : Memory) (a : Nat) (v : Byte) (h : Memory.wf m = true) :
    Memory.read (Memory.write m a v) a = v :=
  readFrom_write_same m 0 a v h (Nat.zero_le a)

/-- A pixel store keeps the canonical form. -/
theorem wf_writePixel (m : Memory) (a : Nat) (px : RGBA) (h : Memory.wf m = true) :
    Memory.wf (writePixel m a px) = true :=
  wf_write _ _ _ (wf_write _ _ _ (wf_write _ _ _ (wf_write _ _ _ h)))

/-- A pixel store leaves every byte outside its four alone. -/
theorem read_writePixel_other (m : Memory) (a b : Nat) (px : RGBA) (h : b < a ∨ a + 4 ≤ b) :
    Memory.read (writePixel m a px) b = Memory.read m b := by
  unfold writePixel
  rw [read_write_other _ _ _ _ (by omega), read_write_other _ _ _ _ (by omega),
    read_write_other _ _ _ _ (by omega), read_write_other _ _ _ _ (by omega)]

/-- The four bytes of a pixel store are its channels in ascending order (spec/20_memory.md R43). -/
theorem read_writePixel_same (m : Memory) (a c : Nat) (px : RGBA) (h : Memory.wf m = true) (hc : c < 4) :
    Memory.read (writePixel m a px) (a + c) = channel px c := by
  have h0 := wf_write m a px.r h
  have h1 := wf_write _ (a + 1) px.g h0
  have h2 := wf_write _ (a + 2) px.b h1
  unfold writePixel
  match c, hc with
  | 0, _ =>
    rw [read_write_other _ _ _ _ (by omega), read_write_other _ _ _ _ (by omega),
      read_write_other _ _ _ _ (by omega)]
    exact read_write_same m a px.r h
  | 1, _ =>
    rw [read_write_other _ _ _ _ (by omega), read_write_other _ _ _ _ (by omega)]
    exact read_write_same _ _ px.g h0
  | 2, _ =>
    rw [read_write_other _ _ _ _ (by omega)]
    exact read_write_same _ _ px.b h1
  | 3, _ => exact read_write_same _ _ px.a h2

end Sys2Proof.Laws
end

