-- ==== Sys2Proof/Laws/State.lean ====
section
/-! SUPPORT. What every named update of the state leaves in every field, true by unfolding the update once. -/

namespace Sys2Proof.Laws

open Sys2Proof.Machine

variable (s : State)

@[simp] theorem withTexel_regs (t : RGBA) : (s.withTexel t).regs = s.regs := rfl
@[simp] theorem withTexel_run (t : RGBA) : (s.withTexel t).run = s.run := rfl
@[simp] theorem withTexel_inMem (t : RGBA) : (s.withTexel t).inMem = s.inMem := rfl
@[simp] theorem withTexel_outMem (t : RGBA) : (s.withTexel t).outMem = s.outMem := rfl
@[simp] theorem withTexel_lane (t : RGBA) : (s.withTexel t).lane = { s.lane with texel := t } := rfl
@[simp] theorem withTexel_host (t : RGBA) : (s.withTexel t).host = s.host := rfl
@[simp] theorem withAlpha_regs (a : Byte) : (s.withAlpha a).regs = s.regs := rfl
@[simp] theorem withAlpha_run (a : Byte) : (s.withAlpha a).run = s.run := rfl
@[simp] theorem withAlpha_inMem (a : Byte) : (s.withAlpha a).inMem = s.inMem := rfl
@[simp] theorem withAlpha_outMem (a : Byte) : (s.withAlpha a).outMem = s.outMem := rfl
@[simp] theorem withAlpha_lane (a : Byte) : (s.withAlpha a).lane = { s.lane with texel := { s.lane.texel with a := a } } := rfl
@[simp] theorem withAlpha_host (a : Byte) : (s.withAlpha a).host = s.host := rfl
@[simp] theorem withRdata_regs (v : Word) : (s.withRdata v).regs = s.regs := rfl
@[simp] theorem withRdata_run (v : Word) : (s.withRdata v).run = s.run := rfl
@[simp] theorem withRdata_inMem (v : Word) : (s.withRdata v).inMem = s.inMem := rfl
@[simp] theorem withRdata_outMem (v : Word) : (s.withRdata v).outMem = s.outMem := rfl
@[simp] theorem withRdata_lane (v : Word) : (s.withRdata v).lane = s.lane := rfl
@[simp] theorem withRdata_host (v : Word) : (s.withRdata v).host = { s.host with rdata := v } := rfl
@[simp] theorem withAgenda_regs (a : List Event) : (s.withAgenda a).regs = s.regs := rfl
@[simp] theorem withAgenda_run (a : List Event) : (s.withAgenda a).run = s.run := rfl
@[simp] theorem withAgenda_inMem (a : List Event) : (s.withAgenda a).inMem = s.inMem := rfl
@[simp] theorem withAgenda_outMem (a : List Event) : (s.withAgenda a).outMem = s.outMem := rfl
@[simp] theorem withAgenda_lane (a : List Event) : (s.withAgenda a).lane = s.lane := rfl
@[simp] theorem withAgenda_host (a : List Event) : (s.withAgenda a).host = { s.host with agenda := a } := rfl
@[simp] theorem raise_regs (e : Err) : (raise e s).regs = { s.regs with err := some e, status := .error } := rfl
@[simp] theorem raise_inMem (e : Err) : (raise e s).inMem = s.inMem := rfl
@[simp] theorem raise_outMem (e : Err) : (raise e s).outMem = s.outMem := rfl
@[simp] theorem raise_lane (e : Err) : (raise e s).lane = s.lane := rfl
@[simp] theorem raise_host (e : Err) : (raise e s).host = { s.host with freeTick := s.host.freeTick + 6 } := rfl
@[simp] theorem latch_regs : (latch s).regs = { s.regs with err := none } := rfl
@[simp] theorem latch_inMem : (latch s).inMem = s.inMem := rfl
@[simp] theorem latch_outMem : (latch s).outMem = s.outMem := rfl
@[simp] theorem latch_lane : (latch s).lane = s.lane := rfl
@[simp] theorem latch_host : (latch s).host = { s.host with seen := false } := rfl
@[simp] theorem beginRun_regs (b : Nat) : (beginRun b s).regs = { s.regs with status := .busy } := rfl
@[simp] theorem beginRun_inMem (b : Nat) : (beginRun b s).inMem = s.inMem := rfl
@[simp] theorem beginRun_outMem (b : Nat) : (beginRun b s).outMem = s.outMem := rfl
@[simp] theorem beginRun_lane (b : Nat) : (beginRun b s).lane = s.lane := rfl
@[simp] theorem beginRun_host (b : Nat) : (beginRun b s).host = { s.host with outBefore := s.outMem } := rfl
@[simp] theorem hostReset_regs : (hostReset s).regs = HostRegs.reset := rfl
@[simp] theorem hostReset_run : (hostReset s).run = Run.reset := rfl
@[simp] theorem hostReset_inMem : (hostReset s).inMem = s.inMem := rfl
@[simp] theorem hostReset_outMem : (hostReset s).outMem = if s.regs.status = .busy then abandonedOut s else s.outMem := rfl
@[simp] theorem hostReset_lane : (hostReset s).lane = s.lane := rfl
@[simp] theorem hostReset_host : (hostReset s).host = { s.host with seen := true, freeTick := s.host.freeTick + 1 } := rfl
@[simp] theorem raise_run_f (e : Err) : (raise e s).run.f = s.run.f := rfl
@[simp] theorem raise_run_w (e : Err) : (raise e s).run.w = s.run.w := rfl
@[simp] theorem raise_run_h (e : Err) : (raise e s).run.h = s.run.h := rfl
@[simp] theorem raise_run_l (e : Err) : (raise e s).run.l = s.run.l := rfl
@[simp] theorem latch_run_f : (latch s).run.f = Format.ofTag s.regs.format := rfl
@[simp] theorem latch_run_w : (latch s).run.w = s.regs.width := rfl
@[simp] theorem latch_run_h : (latch s).run.h = s.regs.height := rfl
@[simp] theorem latch_run_l : (latch s).run.l = s.regs.len := rfl
@[simp] theorem latch_run_nbx : (latch s).run.nbx = s.run.nbx := rfl
@[simp] theorem latch_run_nby : (latch s).run.nby = s.run.nby := rfl
@[simp] theorem latch_run_bsz : (latch s).run.bsz = s.run.bsz := rfl
@[simp] theorem latch_run_cur : (latch s).run.cur = s.run.cur := rfl
@[simp] theorem latch_run_blkX : (latch s).run.blkX = s.run.blkX := rfl
@[simp] theorem latch_run_blkY : (latch s).run.blkY = s.run.blkY := rfl
@[simp] theorem beginRun_run_f (b : Nat) : (beginRun b s).run.f = s.run.f := rfl
@[simp] theorem beginRun_run_w (b : Nat) : (beginRun b s).run.w = s.run.w := rfl
@[simp] theorem beginRun_run_h (b : Nat) : (beginRun b s).run.h = s.run.h := rfl
@[simp] theorem beginRun_run_l (b : Nat) : (beginRun b s).run.l = s.run.l := rfl
@[simp] theorem beginRun_run_nbx (b : Nat) : (beginRun b s).run.nbx = ceil4 s.run.w.toNat := rfl
@[simp] theorem beginRun_run_nby (b : Nat) : (beginRun b s).run.nby = ceil4 s.run.h.toNat := rfl
@[simp] theorem beginRun_run_bsz (b : Nat) : (beginRun b s).run.bsz = b := rfl
@[simp] theorem beginRun_run_cur (b : Nat) : (beginRun b s).run.cur = 0 := rfl
@[simp] theorem beginRun_run_blkX (b : Nat) : (beginRun b s).run.blkX = 0 := rfl
@[simp] theorem beginRun_run_blkY (b : Nat) : (beginRun b s).run.blkY = 0 := rfl

/-- The cursor's advance keeps the latches and the derived constants (spec/10_state.md R20). -/
@[simp] theorem advance_f (r : Run) : r.advance.f = r.f := by unfold Run.advance; split <;> rfl
@[simp] theorem advance_w (r : Run) : r.advance.w = r.w := by unfold Run.advance; split <;> rfl
@[simp] theorem advance_h (r : Run) : r.advance.h = r.h := by unfold Run.advance; split <;> rfl
@[simp] theorem advance_l (r : Run) : r.advance.l = r.l := by unfold Run.advance; split <;> rfl
@[simp] theorem advance_nbx (r : Run) : r.advance.nbx = r.nbx := by unfold Run.advance; split <;> rfl
@[simp] theorem advance_nby (r : Run) : r.advance.nby = r.nby := by unfold Run.advance; split <;> rfl
@[simp] theorem advance_bsz (r : Run) : r.advance.bsz = r.bsz := by unfold Run.advance; split <;> rfl
@[simp] theorem advance_cur (r : Run) : r.advance.cur = r.cur + r.bsz := by unfold Run.advance; split <;> rfl

/-- Row-major order (spec/44_image_decode.md R186): the next block has the next number. -/
theorem advance_blocksDone (r : Run) :
    r.advance.blkY * r.nbx + r.advance.blkX = r.blkY * r.nbx + r.blkX + 1 := by
  unfold Run.advance
  split
  · rename_i hx
    simp only
    rw [Nat.add_mul]
    omega
  · simp only
    omega

end Sys2Proof.Laws
end

