-- ==== Sys2Proof/Laws/Ops.lean ====
section
/-! SUPPORT. What each shared operation can do, said once: the stores of a tile, the block step, START, the host's
accesses, the sequencer. -/

namespace Sys2Proof.Laws

open Sys2Proof.Machine

/-! ## The stores of a tile -/

/-- What XLAT gives, if anything (spec/44_image_decode.md R188). -/
theorem xlat_some (bx by' i addr : Nat) (w h : Word) (hx : xlat bx by' i w h = some addr) :
    texelX bx i < w.toNat ∧ texelY by' i < h.toNat ∧ addr = pixelAddr w (texelX bx i) (texelY by' i) := by
  unfold xlat at hx
  split at hx
  · rename_i hc
    exact ⟨hc.1, hc.2, (Option.some.inj hx).symm⟩
  · cases hx

/-- Every enabled store is inside the image (spec/20_memory.md R48, spec/44_image_decode.md R189). -/
theorem xlat_inside (bx by' i addr : Nat) (w h : Word) (hx : xlat bx by' i w h = some addr) :
    addr + 4 ≤ imageBytes w h := by
  obtain ⟨hX, hY, rfl⟩ := xlat_some bx by' i addr w h hx
  have h1 : texelY by' i + 1 ≤ h.toNat := hY
  have h2 : (texelY by' i + 1) * w.toNat ≤ h.toNat * w.toNat := Nat.mul_le_mul_right _ h1
  have h3 : (texelY by' i + 1) * w.toNat = texelY by' i * w.toNat + w.toNat := by ring
  unfold pixelAddr imageBytes
  have h4 : h.toNat * w.toNat = w.toNat * h.toNat := Nat.mul_comm _ _
  omega

/-- The address of a pixel tells its column and its row. -/
theorem pixelAddr_inj (w : Word) (x y x' y' : Nat) (hx : x < w.toNat) (hx' : x' < w.toNat)
    (h : pixelAddr w x y = pixelAddr w x' y') : x = x' ∧ y = y' := by
  unfold pixelAddr at h
  have hp : y * w.toNat + x = y' * w.toNat + x' := by omega
  have hw : 0 < w.toNat := by omega
  have hm := congrArg (· % w.toNat) hp
  have hd := congrArg (· / w.toNat) hp
  simp only [Nat.mul_add_mod_of_lt hx, Nat.mul_add_mod_of_lt hx'] at hm
  refine ⟨by simpa [Nat.add_comm, Nat.add_mul_mod_self_right, Nat.mod_eq_of_lt hx, Nat.mod_eq_of_lt hx'] using hm, ?_⟩
  simpa [Nat.add_comm (y * w.toNat), Nat.add_comm (y' * w.toNat), Nat.add_mul_div_right _ _ hw,
    Nat.div_eq_of_lt hx, Nat.div_eq_of_lt hx'] using hd

/-- The stores of two different texels of a block do not overlap (spec/44_image_decode.md R190). -/
theorem xlat_disjoint (bx by' i j a b : Nat) (w h : Word) (hne : i ≠ j)
    (ha : xlat bx by' i w h = some a) (hb : xlat bx by' j w h = some b) : a + 4 ≤ b ∨ b + 4 ≤ a := by
  obtain ⟨hxi, _, rfl⟩ := xlat_some _ _ _ _ _ _ ha
  obtain ⟨hxj, _, rfl⟩ := xlat_some _ _ _ _ _ _ hb
  by_cases heq : pixelAddr w (texelX bx i) (texelY by' i) = pixelAddr w (texelX bx j) (texelY by' j)
  · obtain ⟨h1, h2⟩ := pixelAddr_inj _ _ _ _ _ hxi hxj heq
    unfold texelX at h1
    unfold texelY at h2
    omega
  · unfold pixelAddr at heq ⊢
    omega

/-- Storing one texel keeps the canonical form. -/
theorem wf_storeTexel (w h : Word) (bx by' : Nat) (texel : Nat → RGBA) (m : Memory) (i : Nat)
    (hm : Memory.wf m = true) : Memory.wf (storeTexel w h bx by' texel m i) = true := by
  unfold storeTexel
  split
  · exact wf_writePixel _ _ _ hm
  · exact hm

/-- Storing texels keeps the canonical form. -/
theorem wf_storeTexels (w h : Word) (bx by' : Nat) (texel : Nat → RGBA) (is : List Nat) (m : Memory)
    (hm : Memory.wf m = true) : Memory.wf (is.foldl (storeTexel w h bx by' texel) m) = true := by
  induction is generalizing m with
  | nil => exact hm
  | cons i rest ih => exact ih _ (wf_storeTexel w h bx by' texel m i hm)

/-- Storing a tile keeps the canonical form. -/
theorem wf_storeTile (w h : Word) (bx by' : Nat) (texel : Nat → RGBA) (m : Memory) (hm : Memory.wf m = true) :
    Memory.wf (storeTile w h bx by' texel m) = true :=
  wf_storeTexels w h bx by' texel _ m hm

/-- A byte that none of the texels is stored over is as before. -/
theorem read_storeTexels_other (w h : Word) (bx by' : Nat) (texel : Nat → RGBA) (is : List Nat) (m : Memory) (a : Nat)
    (ha : ∀ i ∈ is, ∀ addr, xlat bx by' i w h = some addr → a < addr ∨ addr + 4 ≤ a) :
    Memory.read (is.foldl (storeTexel w h bx by' texel) m) a = Memory.read m a := by
  induction is generalizing m with
  | nil => rfl
  | cons i rest ih =>
    rw [List.foldl_cons, ih _ (fun j hj => ha j (List.mem_cons_of_mem _ hj))]
    unfold storeTexel
    split
    · rename_i addr hx
      exact read_writePixel_other _ _ _ _ (ha i List.mem_cons_self addr hx)
    · rfl

/-- A byte outside the tile's enabled texels is as before. -/
theorem read_storeTile_other (w h : Word) (bx by' : Nat) (texel : Nat → RGBA) (m : Memory) (a : Nat)
    (ha : ∀ i, i < 16 → ∀ addr, xlat bx by' i w h = some addr → a < addr ∨ addr + 4 ≤ a) :
    Memory.read (storeTile w h bx by' texel m) a = Memory.read m a :=
  read_storeTexels_other w h bx by' texel _ m a fun i hi => ha i (List.mem_range.mp hi)

/-- An enabled texel's four bytes are its channels after the tile is stored (spec/44_image_decode.md R186). -/
theorem read_storeTile_same (w h : Word) (bx by' : Nat) (texel : Nat → RGBA) (m : Memory) (i addr c : Nat)
    (hm : Memory.wf m = true) (hi : i < 16) (hx : xlat bx by' i w h = some addr) (hc : c < 4) :
    Memory.read (storeTile w h bx by' texel m) (addr + c) = channel (texel i) c := by
  obtain ⟨l1, l2, hl⟩ := List.append_of_mem (List.mem_range.mpr hi)
  have hnd : (l1 ++ i :: l2).Nodup := hl ▸ List.nodup_range
  have hni : i ∉ l2 := by
    have := (List.nodup_append.mp hnd).2.1
    exact (List.nodup_cons.mp this).1
  unfold storeTile
  rw [hl, List.foldl_append, List.foldl_cons, read_storeTexels_other]
  · unfold storeTexel
    rw [hx]
    exact read_writePixel_same _ _ _ _ (wf_storeTexels w h bx by' texel l1 m hm) hc
  · intro j hj a ha
    have hne : i ≠ j := fun he => hni (he ▸ hj)
    have := xlat_disjoint bx by' i j addr a w h hne hx ha
    omega

/-- Division with remainder is unique. -/
theorem mul_add_unique (n q r q' r' : Nat) (hr : r < n) (hr' : r' < n) (h : q * n + r = q' * n + r') : q = q' ∧ r = r' := by
  have hn : 0 < n := by omega
  have h1 := congrArg (· / n) h
  have h2 := congrArg (· % n) h
  simp only [Nat.add_comm (q*n), Nat.add_comm (q'*n), Nat.add_mul_div_right _ _ hn, Nat.div_eq_of_lt hr, Nat.div_eq_of_lt hr', Nat.add_mul_mod_self_right, Nat.mod_eq_of_lt hr, Nat.mod_eq_of_lt hr'] at h1 h2
  omega

/-- Every byte of the image after a tile is stored: the texel's channel if its pixel lies in the block, else as before
(spec/44_image_decode.md R186, R188). -/
theorem read_storeTile (w h : Word) (bx by' : Nat) (texel : Nat → RGBA) (m : Memory) (a : Nat) (hm : Memory.wf m = true)
    (ha : a < imageBytes w h) :
    Memory.read (storeTile w h bx by' texel m) a =
      if a / 4 % w.toNat / 4 = bx ∧ a / 4 / w.toNat / 4 = by' then
        channel (texel (4 * (a / 4 / w.toNat % 4) + a / 4 % w.toNat % 4)) (a % 4)
      else Memory.read m a := by
  unfold imageBytes at ha
  have hw : 0 < w.toNat := by
    rcases Nat.eq_zero_or_pos w.toNat with h0 | h0
    · rw [h0] at ha; omega
    · exact h0
  generalize hx : a / 4 % w.toNat = x
  generalize hy : a / 4 / w.toNat = y
  have hxl : x < w.toNat := hx ▸ Nat.mod_lt _ hw
  have hp : a / 4 = y * w.toNat + x := by
    rw [← hx, ← hy, Nat.mul_comm]; exact (Nat.div_add_mod _ _).symm
  have hyl : y < h.toNat := by
    rw [← hy]; apply Nat.div_lt_of_lt_mul; omega
  split
  · rename_i hc
    obtain ⟨rfl, rfl⟩ := hc
    have hi : 4 * (y % 4) + x % 4 < 16 := by omega
    have hX : texelX (x / 4) (4 * (y % 4) + x % 4) = x := by unfold texelX; omega
    have hY : texelY (y / 4) (4 * (y % 4) + x % 4) = y := by unfold texelY; omega
    have hxl' : xlat (x / 4) (y / 4) (4 * (y % 4) + x % 4) w h = some (4 * (y * w.toNat + x)) := by
      unfold xlat pixelAddr; rw [hX, hY, if_pos ⟨hxl, hyl⟩]
    have := read_storeTile_same w h (x/4) (y/4) texel m _ _ (a % 4) hm hi hxl' (by omega)
    rw [← hp] at this
    have h4 : 4 * (a / 4) + a % 4 = a := by omega
    rwa [h4] at this
  · rename_i hc
    apply read_storeTile_other
    intro i hi addr hxl'
    obtain ⟨h1, h2, rfl⟩ := xlat_some _ _ _ _ _ _ hxl'
    by_contra hcon
    have he : a / 4 = texelY by' i * w.toNat + texelX bx i := by
      unfold pixelAddr at hcon; omega
    obtain ⟨e1, e2⟩ := mul_add_unique _ _ _ _ _ hxl h1 (hp.symm.trans he)
    apply hc
    unfold texelX at e2; unfold texelY at e1
    omega

/-! ## The instructions -/

/-- What a block step can answer: a next state always (spec/60_exceptions.md R222). -/
theorem blockStep_next (texel : Nat → RGBA) (s t : State) (h : blockStep texel s = .next t) :
    (s.regs.status = .busy ∧
      t = { s with
        outMem := storeTile s.run.w s.run.h s.run.blkX s.run.blkY texel s.outMem
        run := s.run.advance
        regs := { s.regs with status := statusAfter s.run.advance } }) ∨
    (s.regs.status ≠ .busy ∧ t = s) := by
  unfold blockStep at h
  split at h
  · rename_i hb
    cases h
    exact Or.inl ⟨hb, rfl⟩
  · rename_i hb
    cases h
    exact Or.inr ⟨hb, rfl⟩

/-- What START can answer with a next state (spec/44_image_decode.md R184). -/
theorem execStart_next (s t : State) (h : execStart s = .next t) :
    (s.regs.status = .busy ∧ t = s) ∨
    (s.regs.status ≠ .busy ∧ ∃ e, validate (latch s).run.f s.regs.width s.regs.height s.regs.len = .error e ∧
      t = raise e (latch s)) ∨
    (s.regs.status ≠ .busy ∧ ∃ b, validate (latch s).run.f s.regs.width s.regs.height s.regs.len = .ok b ∧
      s.host.fitRun s.regs.width s.regs.height s.regs.len = true ∧ t = beginRun b (latch s)) := by
  unfold execStart at h
  split at h
  · rename_i hb
    cases h
    exact Or.inl ⟨hb, rfl⟩
  · rename_i hb
    simp only at h
    split at h
    · rename_i e he
      cases h
      exact Or.inr (Or.inl ⟨hb, e, he, rfl⟩)
    · rename_i b he
      split at h
      · rename_i ha
        cases h
        exact Or.inr (Or.inr ⟨hb, b, he, ha, rfl⟩)
      · cases h

/-- No register lies in a range: said register by register. -/
theorem clearOf_iff (m : RegFile) (start size : Nat) :
    m.clearOf start size = true ↔
      ∀ idx, idx < 7 → m.addr idx + Config.regBytes ≤ start ∨ start + size ≤ m.addr idx := by
  simp [RegFile.clearOf, Config.regCount]

/-- What the platform's admitting a run says (spec/20_memory.md R50). -/
theorem fitRun_iff (x : HostSide) (w h l : Word) :
    x.fitRun w h l = true ↔
      l.toNat ≤ x.bufs.inSize ∧ imageBytes w h ≤ x.bufs.outSize ∧
        (x.bufs.inBase + l.toNat ≤ x.bufs.outBase ∨ x.bufs.outBase + imageBytes w h ≤ x.bufs.inBase) ∧
        x.regFile.clearOf x.bufs.inBase l.toNat = true ∧
        x.regFile.clearOf x.bufs.outBase (imageBytes w h) = true := by
  simp only [HostSide.fitRun, Buffers.fitRun, Bool.and_eq_true, Bool.or_eq_true, decide_eq_true_eq, and_assoc]

/-- The register found at a bus address has that address, and a number below 7. -/
theorem number?_some (m : RegFile) (addr idx : Nat) (h : m.number? addr = some idx) :
    idx < 7 ∧ m.addr idx = addr ∧ m.stride ≠ 0 := by
  unfold RegFile.number? at h
  split at h
  · cases h
  · rename_i hs
    exact ⟨List.mem_range.mp (List.mem_of_find?_eq_some h), by simpa using List.find?_some h, hs⟩

/-- With a stride, every register answers at its own address. -/
theorem number?_addr (m : RegFile) (idx : Nat) (hs : m.stride ≠ 0) (hi : idx < 7) :
    m.number? (m.addr idx) = some idx := by
  cases hf : m.number? (m.addr idx) with
  | none =>
    unfold RegFile.number? at hf
    rw [if_neg hs, List.find?_eq_none] at hf
    exact absurd (hf idx (List.mem_range.mpr hi)) (by simp)
  | some j =>
    have hj := (number?_some m _ j hf).2.1
    unfold RegFile.addr at hj
    have := Nat.eq_of_mul_eq_mul_right (Nat.pos_of_ne_zero hs) (Nat.add_left_cancel hj)
    rw [this]

/-- What validation passes (spec/44_image_decode.md R185). -/
theorem validate_ok (f : Format) (w h l : Word) (b : Nat) (hv : validate f w h l = .ok b) :
    f.size? = some b ∧ w ≠ 0 ∧ h ≠ 0 ∧ requiredLength w h b ≤ l.toNat := by
  unfold validate at hv
  split at hv
  · cases hv
  · rename_i n hn
    split at hv
    · cases hv
    · rename_i hz
      split at hv
      · cases hv
      · rename_i hl
        cases hv
        exact ⟨hn, fun he => hz (Or.inl he), fun he => hz (Or.inr he), by omega⟩

end Sys2Proof.Laws
end

