-- ==== Sys2Proof/Laws/Exec.lean ====
section
/-! SUPPORT. What one instruction, one access of the host and one fetch can do, said once. -/

namespace Sys2Proof.Laws

open Sys2Proof.Machine

/-- What an instruction that answers a next state did: START's own cases (`execStart_next`), a block step with the
record's texels (`blockStep_next`), or a lane's new texel or alpha. -/
theorem exec_next (i : Instr) (s t : State) (h : exec i s = .next t) :
    (i = .start ∧ execStart s = .next t) ∨
    (∃ texel : Nat → RGBA, (∀ n, recordTexel i n = some (texel n)) ∧ blockStep texel s = .next t) ∨
    (∃ c, t = s.withTexel c) ∨ (∃ a, t = s.withAlpha a) := by
  cases i with
  | start => exact Or.inl ⟨rfl, h⟩
  | blkBC1 c0 c1 idx => exact Or.inr (Or.inl ⟨texelBC1 c0 c1 idx, fun _ => rfl, h⟩)
  | blkBC2 aexp c0 c1 idx => exact Or.inr (Or.inl ⟨texelBC2 aexp c0 c1 idx, fun _ => rfl, h⟩)
  | blkBC3 a0 a1 aidx c0 c1 idx => exact Or.inr (Or.inl ⟨texelBC3 a0 a1 aidx c0 c1 idx, fun _ => rfl, h⟩)
  | csel4_0 => cases h; exact Or.inr (Or.inr (Or.inl ⟨_, rfl⟩))
  | csel4_1 => cases h; exact Or.inr (Or.inr (Or.inl ⟨_, rfl⟩))
  | csel4_2 => cases h; exact Or.inr (Or.inr (Or.inl ⟨_, rfl⟩))
  | csel4_3 => cases h; exact Or.inr (Or.inr (Or.inl ⟨_, rfl⟩))
  | csel3_0 => cases h; exact Or.inr (Or.inr (Or.inl ⟨_, rfl⟩))
  | csel3_1 => cases h; exact Or.inr (Or.inr (Or.inl ⟨_, rfl⟩))
  | csel3_2 => cases h; exact Or.inr (Or.inr (Or.inl ⟨_, rfl⟩))
  | csel3_3 => cases h; exact Or.inr (Or.inr (Or.inl ⟨_, rfl⟩))
  | aexp n => cases h; exact Or.inr (Or.inr (Or.inr ⟨_, rfl⟩))
  | agrad6_0 => cases h; exact Or.inr (Or.inr (Or.inr ⟨_, rfl⟩))
  | agrad6_1 => cases h; exact Or.inr (Or.inr (Or.inr ⟨_, rfl⟩))
  | agrad6_2 => cases h; exact Or.inr (Or.inr (Or.inr ⟨_, rfl⟩))
  | agrad6_3 => cases h; exact Or.inr (Or.inr (Or.inr ⟨_, rfl⟩))
  | agrad6_4 => cases h; exact Or.inr (Or.inr (Or.inr ⟨_, rfl⟩))
  | agrad6_5 => cases h; exact Or.inr (Or.inr (Or.inr ⟨_, rfl⟩))
  | agrad6_6 => cases h; exact Or.inr (Or.inr (Or.inr ⟨_, rfl⟩))
  | agrad6_7 => cases h; exact Or.inr (Or.inr (Or.inr ⟨_, rfl⟩))
  | agrad4_0 => cases h; exact Or.inr (Or.inr (Or.inr ⟨_, rfl⟩))
  | agrad4_1 => cases h; exact Or.inr (Or.inr (Or.inr ⟨_, rfl⟩))
  | agrad4_2 => cases h; exact Or.inr (Or.inr (Or.inr ⟨_, rfl⟩))
  | agrad4_3 => cases h; exact Or.inr (Or.inr (Or.inr ⟨_, rfl⟩))
  | agrad4_4 => cases h; exact Or.inr (Or.inr (Or.inr ⟨_, rfl⟩))
  | agrad4_5 => cases h; exact Or.inr (Or.inr (Or.inr ⟨_, rfl⟩))
  | agrad4_6 => cases h; exact Or.inr (Or.inr (Or.inr ⟨_, rfl⟩))
  | agrad4_7 => cases h; exact Or.inr (Or.inr (Or.inr ⟨_, rfl⟩))

/-- What an access of the host that answers a next state changed: registers (never `STATUS` or `ERR`), one byte of
`IN` that the run does not own, one byte of `OUT` that the run does not own, or its own side only (never where the
registers lie); or it was the reset event. -/
theorem hostStep_next (c : HostCmd) (s t : State) (h : hostStep c s = .next t) :
    (∃ r, t = { s with regs := r } ∧ r.status = s.regs.status ∧ r.err = s.regs.err) ∨
    (∃ a b, t = { s with inMem := Memory.write s.inMem a b } ∧ ¬(s.regs.status = .busy ∧ a < s.run.req)) ∨
    (∃ a b, t = { s with outMem := Memory.write s.outMem a b } ∧ outOwned s a = false) ∨
    (∃ x, t = { s with host := x } ∧ x.agenda = s.host.agenda ∧ x.outBefore = s.host.outBefore ∧
      (x.bufs = s.host.bufs ∨ s.regs.status ≠ .busy) ∧ x.regFile = s.host.regFile) ∨
    (c = .reset ∧ t = hostReset s) := by
  cases c with
  | write idx v =>
    simp only [hostStep, hostWrite] at h
    split at h
    · cases h
    · rename_i r hr
      cases h
      refine Or.inl ⟨r, rfl, ?_⟩
      unfold regWrite at hr
      split_ifs at hr <;> cases hr <;> exact ⟨rfl, rfl⟩
  | read idx =>
    simp only [hostStep, hostRead] at h
    split at h
    · cases h
    · cases h
      exact Or.inr (Or.inr (Or.inr (Or.inl ⟨_, rfl, rfl, rfl, Or.inl rfl, rfl⟩)))
  | writeIn a b =>
    simp only [hostStep, hostWriteIn] at h
    split at h
    · cases h
    · split at h
      · cases h
      · rename_i hn
        cases h
        exact Or.inr (Or.inl ⟨a, b, rfl, hn⟩)
  | readIn a =>
    simp only [hostStep, hostReadIn] at h
    split at h
    · cases h
    · cases h
      exact Or.inr (Or.inr (Or.inr (Or.inl ⟨_, rfl, rfl, rfl, Or.inl rfl, rfl⟩)))
  | writeOut a b =>
    simp only [hostStep, hostWriteOut] at h
    split at h
    · cases h
    · split at h
      · cases h
      · rename_i hn
        cases h
        exact Or.inr (Or.inr (Or.inl ⟨a, b, rfl, by simpa using hn⟩))
  | readOut a =>
    simp only [hostStep, hostReadOut] at h
    split at h
    · cases h
    · split at h
      · cases h
        exact Or.inr (Or.inr (Or.inr (Or.inl ⟨_, rfl, rfl, rfl, Or.inl rfl, rfl⟩)))
      · cases h
        exact Or.inr (Or.inr (Or.inr (Or.inl ⟨_, rfl, rfl, rfl, Or.inl rfl, rfl⟩)))
  | provide b =>
    simp only [hostStep, hostProvide] at h
    split at h
    · cases h
    · rename_i hb
      cases h
      exact Or.inr (Or.inr (Or.inr (Or.inl ⟨_, rfl, rfl, rfl, Or.inr hb, rfl⟩)))
  | reset =>
    cases h
    exact Or.inr (Or.inr (Or.inr (Or.inr ⟨rfl, rfl⟩)))

/-- A block fetch takes as many bytes as it is asked for. -/
@[simp] theorem fetchBytes_length (m : Memory) (a n : Nat) : (fetchBytes m a n).length = n := by
  simp [fetchBytes]

/-- A whole record of a format decodes to that format's operation (spec/30_encoding.md R79, R81). -/
theorem decode_record (f : Format) (bs : List Byte) (h : f.size? = some bs.length) :
    ∃ i, decodeRecord f (leNat bs) = .ok i ∧ decode (.record f) bs = .ok (i, []) := by
  have hs : (Ctx.record f).size = bs.length := by simp [Ctx.size, h]
  cases f with
  | bc1 => exact ⟨_, rfl, by simp [decode, hs, decodeValue, decodeRecord]⟩
  | bc2 => exact ⟨_, rfl, by simp [decode, hs, decodeValue, decodeRecord]⟩
  | bc3 => exact ⟨_, rfl, by simp [decode, hs, decodeValue, decodeRecord]⟩
  | other n => simp [Format.size?] at h

/-- A decoded record has texels. -/
theorem recordTexel_of_record (f : Format) (v : Nat) (i : Instr) (h : decodeRecord f v = .ok i) :
    ∃ texel : Nat → RGBA, ∀ n, recordTexel i n = some (texel n) := by
  cases f with
  | bc1 => cases h; exact ⟨_, fun _ => rfl⟩
  | bc2 => cases h; exact ⟨_, fun _ => rfl⟩
  | bc3 => cases h; exact ⟨_, fun _ => rfl⟩
  | other n => cases h

/-- Taking no event away is no change. -/
@[simp] theorem withAgenda_self (s : State) : s.withAgenda s.host.agenda = s := rfl

/-- `CTRL`'s decoder sees bit 0 of the value written (spec/10_state.md R13). -/
theorem decode_ctrl (v : Word) :
    decode .ctrl (leBytes 4 v.toNat) = if v.getLsbD 0 = true then .ok (.start, []) else .error .notStart := by
  have hv : leNat ((leBytes 4 v.toNat).take 4) % 2 = v.toNat % 2 := by
    simp only [leBytes, List.take, leNat, BitVec.toNat_ofNat]
    omega
  have hb : v.getLsbD 0 = decide (v.toNat % 2 = 1) := by
    simp [BitVec.getLsbD, Nat.testBit_zero]
  simp only [decode, Ctx.size, decodeValue, decodeCtrl, hv, hb, decide_eq_true_eq]
  have hl : ¬ (leBytes 4 v.toNat).length < 4 := by simp [leBytes]
  rw [if_neg hl]
  by_cases h1 : v.toNat % 2 = 1
  · simp [h1, leBytes]
  · simp [h1]

/-- The colour entries are selector codes: no START, no record. -/
theorem csel_kind (n : Nat) (i : Instr) (h : csel4Of n = some i ∨ csel3Of n = some i) :
    i ≠ .start ∧ ∀ j, recordTexel i j = none := by
  rcases h with h | h
  · unfold csel4Of at h
    split at h <;> cases h <;> exact ⟨Instr.noConfusion, fun _ => rfl⟩
  · unfold csel3Of at h
    split at h <;> cases h <;> exact ⟨Instr.noConfusion, fun _ => rfl⟩

/-- The alpha entries are selector codes: no START, no record. -/
theorem agrad_kind (n : Nat) (i : Instr) (h : agrad6Of n = some i ∨ agrad4Of n = some i) :
    i ≠ .start ∧ ∀ j, recordTexel i j = none := by
  rcases h with h | h
  · unfold agrad6Of at h
    split at h <;> cases h <;> exact ⟨Instr.noConfusion, fun _ => rfl⟩
  · unfold agrad4Of at h
    split at h <;> cases h <;> exact ⟨Instr.noConfusion, fun _ => rfl⟩

/-- What a lane decodes is a selector code: no START, no record (spec/30_encoding.md R79). -/
theorem decode_code (k : CodeKind) (s : State) (bs rest : List Byte) (i : Instr)
    (h : decode (codeCtx k s) bs = .ok (i, rest)) : i ≠ .start ∧ ∀ j, recordTexel i j = none := by
  unfold decode at h
  split at h
  · cases h
  · split at h
    · rename_i j hv
      cases h
      generalize leNat _ = n at hv
      cases k <;> simp only [codeCtx, decodeValue, decodeColour, decodeAlpha] at hv <;> split at hv
      · split at hv
        · rename_i o ho
          cases hv
          split at ho
          · exact csel_kind _ _ (Or.inl ho)
          · exact csel_kind _ _ (Or.inr ho)
        · cases hv
      · split at hv
        · cases hv
          exact csel_kind _ _ (Or.inl ‹_›)
        · cases hv
      · split at hv
        · cases hv
          exact csel_kind _ _ (Or.inl ‹_›)
        · cases hv
      · cases hv
      · cases hv
      · by_cases hn : n < 16
        · rw [if_pos hn] at hv
          cases hv
          exact ⟨Instr.noConfusion, fun _ => rfl⟩
        · rw [if_neg hn] at hv
          cases hv
      · split at hv
        · rename_i o ho
          cases hv
          split at ho
          · exact agrad_kind _ _ (Or.inl ho)
          · exact agrad_kind _ _ (Or.inr ho)
        · cases hv
      · cases hv
    · cases h

/-- The host's turn: a write of `CTRL` is START or nothing, by its bit 0; every other access is made. -/
theorem issueHost_eq (c : HostCmd) (s : State) :
    (∃ v, c = .write 0 v ∧ issueHost c s = if v.getLsbD 0 = true then .instruction .start s else .nothing s) ∨
    ((∀ v, c ≠ .write 0 v) ∧ issueHost c s = .access c s) := by
  unfold issueHost
  split
  · rename_i idx v
    by_cases h0 : idx = Config.regCtrl
    · refine Or.inl ⟨v, by rw [h0]; rfl, ?_⟩
      rw [if_pos h0, decode_ctrl]
      by_cases hv : v.getLsbD 0 = true
      · rw [if_pos hv, if_pos hv]
      · rw [if_neg hv, if_neg hv]
    · rw [if_neg h0]
      exact Or.inr ⟨fun w hw => by cases hw; exact h0 rfl, rfl⟩
  · rename_i hn
    exact Or.inr ⟨fun w hw => hn _ _ hw, rfl⟩

/-- What the sequencer can issue: `DEC`'s turn, a lane's code, the host's next access (by number, whichever way it was
made), or nothing to issue at a bus address without a register. -/
theorem issue_eq (s : State) :
    ((s.host.agenda = [] ∨ ∃ r, s.host.agenda = .dec :: r) ∧ ∃ a, issue s = issueDec (s.withAgenda a)) ∨
    (∃ k b r, s.host.agenda = .code k b :: r ∧ issue s = issueCode k b (s.withAgenda r)) ∨
    (∃ c, nextAccess s = some c ∧ issue s = issueHost c (s.withAgenda s.host.agenda.tail)) ∨
    (nextAccess s = none ∧ ∃ addr, issue s = .refuse (.noRegisterAt addr)) := by
  cases ha : s.host.agenda with
  | nil => exact Or.inl ⟨Or.inl rfl, [], by unfold issue; rw [ha]; exact congrArg issueDec (by rw [← ha]; rfl)⟩
  | cons e r =>
    cases e with
    | dec => exact Or.inl ⟨Or.inr ⟨r, rfl⟩, r, by unfold issue; rw [ha]⟩
    | code k b => exact Or.inr (Or.inl ⟨k, b, r, rfl, by unfold issue; rw [ha]⟩)
    | host c =>
      exact Or.inr (Or.inr (Or.inl ⟨c, by unfold nextAccess; rw [ha], by unfold issue; rw [ha]; rfl⟩))
    | bus b =>
      cases hb : b.byNumber s.host.regFile with
      | some c =>
        exact Or.inr (Or.inr (Or.inl
          ⟨c, by unfold nextAccess; rw [ha]; exact hb, by unfold issue; rw [ha]; simp only [hb]; rfl⟩))
      | none =>
        exact Or.inr (Or.inr (Or.inr
          ⟨by unfold nextAccess; rw [ha]; exact hb, b.addr, by unfold issue; rw [ha]; simp only [hb]⟩))

/-- A next access that is no register access was no access by bus address. -/
theorem nextAccess_event (s : State) (c : HostCmd) (h : nextAccess s = some c) (hw : ∀ idx v, c ≠ .write idx v)
    (hr : ∀ idx, c ≠ .read idx) : ∃ r, s.host.agenda = .host c :: r := by
  unfold nextAccess at h
  split at h
  · rename_i d r ha
    cases h
    exact ⟨r, ha⟩
  · rename_i b r ha
    cases b <;> simp only [BusCmd.byNumber, Option.map_eq_some_iff] at h <;> obtain ⟨idx, _, rfl⟩ := h
    · exact absurd rfl (hw idx _)
    · exact absurd rfl (hr idx)
  · cases h

/-- What `DEC`'s turn issues: the record at the cursor, a stop that no run reaches, or nothing. -/
theorem issueDec_eq (s : State) :
    (s.regs.status = .busy ∧ ∃ i rest,
      decode (.record s.run.f) (fetchBytes s.inMem s.run.cur s.run.bsz) = .ok (i, rest) ∧
        issueDec s = .instruction i s) ∨
    (s.regs.status = .busy ∧ issueDec s = .stuck .noBlockOperation) ∨
    (s.regs.status ≠ .busy ∧ issueDec s = .nothing s) := by
  unfold issueDec
  split
  · rename_i hb
    split
    · rename_i i rest hd
      exact Or.inl ⟨hb, i, rest, hd, rfl⟩
    · exact Or.inr (Or.inl ⟨hb, rfl⟩)
  · rename_i hb
    exact Or.inr (Or.inr ⟨hb, rfl⟩)

/-- What a lane's turn issues: the decoded code, or a refusal. -/
theorem issueCode_eq (k : CodeKind) (b : Byte) (s : State) :
    (∃ i rest, decode (codeCtx k s) [b] = .ok (i, rest) ∧ issueCode k b s = .instruction i s) ∨
    issueCode k b s = .refuse .noSuchCode := by
  unfold issueCode
  split
  · rename_i i rest hd
    exact Or.inl ⟨i, rest, hd, rfl⟩
  · exact Or.inr rfl

/-- A lane's context does not look at the agenda. -/
@[simp] theorem codeCtx_withAgenda (k : CodeKind) (s : State) (a : List Event) :
    codeCtx k (s.withAgenda a) = codeCtx k s := by cases k <;> rfl

/-- Where an instruction the sequencer issues comes from: the record at the cursor in BUSY, a host write of `CTRL` with
bit 0 = 1, or a lane's selector code; the state it acts on differs in the agenda only. -/
theorem issue_instruction (s u : State) (i : Instr) (h : issue s = .instruction i u) :
    (s.regs.status = .busy ∧ (∃ a, u = s.withAgenda a) ∧ (s.host.agenda = [] ∨ ∃ r, s.host.agenda = .dec :: r) ∧
      ∃ rest, decode (.record s.run.f) (fetchBytes s.inMem s.run.cur s.run.bsz) = .ok (i, rest)) ∨
    (i = .start ∧ ∃ v, nextAccess s = some (.write 0 v) ∧ v.getLsbD 0 = true ∧
      u = s.withAgenda s.host.agenda.tail) ∨
    (∃ k b r rest, s.host.agenda = .code k b :: r ∧ decode (codeCtx k s) [b] = .ok (i, rest) ∧
      u = s.withAgenda r) := by
  rcases issue_eq s with ⟨ha, a, e⟩ | ⟨k, b, r, ha, e⟩ | ⟨c, hc, e⟩ | ⟨_, _, e⟩ <;> rw [e] at h
  · rcases issueDec_eq (s.withAgenda a) with ⟨hb, j, rest, hd, e⟩ | ⟨_, e⟩ | ⟨_, e⟩ <;> rw [e] at h <;> cases h
    exact Or.inl ⟨hb, ⟨a, rfl⟩, ha, rest, hd⟩
  · rcases issueCode_eq k b (s.withAgenda r) with ⟨j, rest, hd, e⟩ | e <;> rw [e] at h <;> cases h
    exact Or.inr (Or.inr ⟨k, b, r, rest, ha, by simpa using hd, rfl⟩)
  · rcases issueHost_eq c (s.withAgenda s.host.agenda.tail) with ⟨v, rfl, e⟩ | ⟨_, e⟩ <;> rw [e] at h
    · split at h <;> cases h
      exact Or.inr (Or.inl ⟨rfl, v, hc, ‹_›, rfl⟩)
    · cases h
  · cases h

/-- An access the sequencer issues is the host's next one, and no write of `CTRL`. -/
theorem issue_access (s u : State) (c : HostCmd) (h : issue s = .access c u) :
    nextAccess s = some c ∧ u = s.withAgenda s.host.agenda.tail ∧ ∀ v, c ≠ .write 0 v := by
  rcases issue_eq s with ⟨_, a, e⟩ | ⟨k, b, r, _, e⟩ | ⟨d, hd, e⟩ | ⟨_, _, e⟩ <;> rw [e] at h
  · rcases issueDec_eq (s.withAgenda a) with ⟨_, _, _, _, e⟩ | ⟨_, e⟩ | ⟨_, e⟩ <;> rw [e] at h <;> cases h
  · rcases issueCode_eq k b (s.withAgenda r) with ⟨_, _, _, e⟩ | e <;> rw [e] at h <;> cases h
  · rcases issueHost_eq d (s.withAgenda s.host.agenda.tail) with ⟨v, _, e⟩ | ⟨hn, e⟩ <;> rw [e] at h
    · split at h <;> cases h
    · cases h
      exact ⟨hd, rfl, hn⟩
  · cases h

/-- Where the sequencer issues nothing, the state differs in the agenda only. -/
theorem issue_nothing (s u : State) (h : issue s = .nothing u) : ∃ a, u = s.withAgenda a := by
  rcases issue_eq s with ⟨_, a, e⟩ | ⟨k, b, r, _, e⟩ | ⟨d, _, e⟩ | ⟨_, _, e⟩ <;> rw [e] at h
  · rcases issueDec_eq (s.withAgenda a) with ⟨_, _, _, _, e⟩ | ⟨_, e⟩ | ⟨_, e⟩ <;> rw [e] at h <;> cases h
    exact ⟨a, rfl⟩
  · rcases issueCode_eq k b (s.withAgenda r) with ⟨_, _, _, e⟩ | e <;> rw [e] at h <;> cases h
  · rcases issueHost_eq d (s.withAgenda s.host.agenda.tail) with ⟨v, _, e⟩ | ⟨_, e⟩ <;> rw [e] at h
    · split at h <;> cases h
      exact ⟨_, rfl⟩
    · cases h
  · cases h

/-- What a step that answers a next state did. -/
theorem step_next (s t : State) (h : step s = .next t) :
    (∃ i u, issue s = .instruction i u ∧ exec i u = .next t) ∨
    (∃ c u, issue s = .access c u ∧ hostStep c u = .next t) ∨ issue s = .nothing t := by
  unfold step at h
  split at h
  · rename_i i u hi
    exact Or.inl ⟨i, u, hi, h⟩
  · rename_i c u hi
    exact Or.inr (Or.inl ⟨c, u, hi, h⟩)
  · rename_i u hi
    cases h
    exact Or.inr (Or.inr hi)
  · cases h
  · cases h

end Sys2Proof.Laws
end

