-- ==== Sys2Proof/Laws/PerInstr.lean ====
section
/-! SUPPORT. Per-instruction laws about the instruction as syntax: an encoded instruction has exactly the length its
context gives it (spec/30_encoding.md R82), and stands in a context that selects it. -/

namespace Sys2Proof.Laws

/-- `leBytes n` gives `n` bytes. -/
@[simp] theorem leBytes_length (n v : Nat) : (leBytes n v).length = n := by
  induction n generalizing v with
  | zero => rfl
  | succ n ih => simp [leBytes, ih]

/-- The encoding of `i` has the length of every context that selects `i`, and some context does. -/
def EncodedLength.Statement (i : Instr) : Prop :=
  (∃ c, i.wellFormedIn c = true) ∧ ∀ c, i.wellFormedIn c = true → (encode i).length = c.size

theorem EncodedLength.start : EncodedLength.Statement .start := by
  refine ⟨⟨.ctrl, by simp [Instr.wellFormedIn]⟩, fun c h => ?_⟩
  simp only [Instr.wellFormedIn, decide_eq_true_eq] at h
  subst h
  simp [encode, Ctx.size]

theorem EncodedLength.blkBC1 (c0 c1 : Colour565) (idx : BitVec 32) : EncodedLength.Statement (.blkBC1 c0 c1 idx) := by
  refine ⟨⟨.record .bc1, by simp [Instr.wellFormedIn]⟩, fun c h => ?_⟩
  simp only [Instr.wellFormedIn, decide_eq_true_eq] at h
  subst h
  simp [encode, Ctx.size, Format.size?]

theorem EncodedLength.blkBC2 (aexp : BitVec 64) (c0 c1 : Colour565) (idx : BitVec 32) : EncodedLength.Statement (.blkBC2 aexp c0 c1 idx) := by
  refine ⟨⟨.record .bc2, by simp [Instr.wellFormedIn]⟩, fun c h => ?_⟩
  simp only [Instr.wellFormedIn, decide_eq_true_eq] at h
  subst h
  simp [encode, Ctx.size, Format.size?]

theorem EncodedLength.blkBC3 (a0 a1 : Byte) (aidx : BitVec 48) (c0 c1 : Colour565) (idx : BitVec 32) : EncodedLength.Statement (.blkBC3 a0 a1 aidx c0 c1 idx) := by
  refine ⟨⟨.record .bc3, by simp [Instr.wellFormedIn]⟩, fun c h => ?_⟩
  simp only [Instr.wellFormedIn, decide_eq_true_eq] at h
  subst h
  simp [encode, Ctx.size, Format.size?]

theorem EncodedLength.csel4_0 : EncodedLength.Statement .csel4_0 := by
  refine ⟨⟨.colour .bc1 true, rfl⟩, fun c h => ?_⟩
  cases c <;> simp_all [Instr.wellFormedIn, encode, Ctx.size]

theorem EncodedLength.csel4_1 : EncodedLength.Statement .csel4_1 := by
  refine ⟨⟨.colour .bc1 true, rfl⟩, fun c h => ?_⟩
  cases c <;> simp_all [Instr.wellFormedIn, encode, Ctx.size]

theorem EncodedLength.csel4_2 : EncodedLength.Statement .csel4_2 := by
  refine ⟨⟨.colour .bc1 true, rfl⟩, fun c h => ?_⟩
  cases c <;> simp_all [Instr.wellFormedIn, encode, Ctx.size]

theorem EncodedLength.csel4_3 : EncodedLength.Statement .csel4_3 := by
  refine ⟨⟨.colour .bc1 true, rfl⟩, fun c h => ?_⟩
  cases c <;> simp_all [Instr.wellFormedIn, encode, Ctx.size]

theorem EncodedLength.csel3_0 : EncodedLength.Statement .csel3_0 := by
  refine ⟨⟨.colour .bc1 false, rfl⟩, fun c h => ?_⟩
  cases c <;> simp_all [Instr.wellFormedIn, encode, Ctx.size]

theorem EncodedLength.csel3_1 : EncodedLength.Statement .csel3_1 := by
  refine ⟨⟨.colour .bc1 false, rfl⟩, fun c h => ?_⟩
  cases c <;> simp_all [Instr.wellFormedIn, encode, Ctx.size]

theorem EncodedLength.csel3_2 : EncodedLength.Statement .csel3_2 := by
  refine ⟨⟨.colour .bc1 false, rfl⟩, fun c h => ?_⟩
  cases c <;> simp_all [Instr.wellFormedIn, encode, Ctx.size]

theorem EncodedLength.csel3_3 : EncodedLength.Statement .csel3_3 := by
  refine ⟨⟨.colour .bc1 false, rfl⟩, fun c h => ?_⟩
  cases c <;> simp_all [Instr.wellFormedIn, encode, Ctx.size]

theorem EncodedLength.aexp (n : BitVec 4) : EncodedLength.Statement (.aexp n) := by
  refine ⟨⟨.alpha .bc2 true, rfl⟩, fun c h => ?_⟩
  cases c <;> simp_all [Instr.wellFormedIn, encode, Ctx.size]

theorem EncodedLength.agrad6_0 : EncodedLength.Statement .agrad6_0 := by
  refine ⟨⟨.alpha .bc3 true, rfl⟩, fun c h => ?_⟩
  cases c <;> simp_all [Instr.wellFormedIn, encode, Ctx.size]

theorem EncodedLength.agrad6_1 : EncodedLength.Statement .agrad6_1 := by
  refine ⟨⟨.alpha .bc3 true, rfl⟩, fun c h => ?_⟩
  cases c <;> simp_all [Instr.wellFormedIn, encode, Ctx.size]

theorem EncodedLength.agrad6_2 : EncodedLength.Statement .agrad6_2 := by
  refine ⟨⟨.alpha .bc3 true, rfl⟩, fun c h => ?_⟩
  cases c <;> simp_all [Instr.wellFormedIn, encode, Ctx.size]

theorem EncodedLength.agrad6_3 : EncodedLength.Statement .agrad6_3 := by
  refine ⟨⟨.alpha .bc3 true, rfl⟩, fun c h => ?_⟩
  cases c <;> simp_all [Instr.wellFormedIn, encode, Ctx.size]

theorem EncodedLength.agrad6_4 : EncodedLength.Statement .agrad6_4 := by
  refine ⟨⟨.alpha .bc3 true, rfl⟩, fun c h => ?_⟩
  cases c <;> simp_all [Instr.wellFormedIn, encode, Ctx.size]

theorem EncodedLength.agrad6_5 : EncodedLength.Statement .agrad6_5 := by
  refine ⟨⟨.alpha .bc3 true, rfl⟩, fun c h => ?_⟩
  cases c <;> simp_all [Instr.wellFormedIn, encode, Ctx.size]

theorem EncodedLength.agrad6_6 : EncodedLength.Statement .agrad6_6 := by
  refine ⟨⟨.alpha .bc3 true, rfl⟩, fun c h => ?_⟩
  cases c <;> simp_all [Instr.wellFormedIn, encode, Ctx.size]

theorem EncodedLength.agrad6_7 : EncodedLength.Statement .agrad6_7 := by
  refine ⟨⟨.alpha .bc3 true, rfl⟩, fun c h => ?_⟩
  cases c <;> simp_all [Instr.wellFormedIn, encode, Ctx.size]

theorem EncodedLength.agrad4_0 : EncodedLength.Statement .agrad4_0 := by
  refine ⟨⟨.alpha .bc3 false, rfl⟩, fun c h => ?_⟩
  cases c <;> simp_all [Instr.wellFormedIn, encode, Ctx.size]

theorem EncodedLength.agrad4_1 : EncodedLength.Statement .agrad4_1 := by
  refine ⟨⟨.alpha .bc3 false, rfl⟩, fun c h => ?_⟩
  cases c <;> simp_all [Instr.wellFormedIn, encode, Ctx.size]

theorem EncodedLength.agrad4_2 : EncodedLength.Statement .agrad4_2 := by
  refine ⟨⟨.alpha .bc3 false, rfl⟩, fun c h => ?_⟩
  cases c <;> simp_all [Instr.wellFormedIn, encode, Ctx.size]

theorem EncodedLength.agrad4_3 : EncodedLength.Statement .agrad4_3 := by
  refine ⟨⟨.alpha .bc3 false, rfl⟩, fun c h => ?_⟩
  cases c <;> simp_all [Instr.wellFormedIn, encode, Ctx.size]

theorem EncodedLength.agrad4_4 : EncodedLength.Statement .agrad4_4 := by
  refine ⟨⟨.alpha .bc3 false, rfl⟩, fun c h => ?_⟩
  cases c <;> simp_all [Instr.wellFormedIn, encode, Ctx.size]

theorem EncodedLength.agrad4_5 : EncodedLength.Statement .agrad4_5 := by
  refine ⟨⟨.alpha .bc3 false, rfl⟩, fun c h => ?_⟩
  cases c <;> simp_all [Instr.wellFormedIn, encode, Ctx.size]

theorem EncodedLength.agrad4_6 : EncodedLength.Statement .agrad4_6 := by
  refine ⟨⟨.alpha .bc3 false, rfl⟩, fun c h => ?_⟩
  cases c <;> simp_all [Instr.wellFormedIn, encode, Ctx.size]

theorem EncodedLength.agrad4_7 : EncodedLength.Statement .agrad4_7 := by
  refine ⟨⟨.alpha .bc3 false, rfl⟩, fun c h => ?_⟩
  cases c <;> simp_all [Instr.wellFormedIn, encode, Ctx.size]

end Sys2Proof.Laws
end

