-- ==== Sys2Proof/Tests/Slice0.lean ====
section
/-! SUPPORT. The model's own tests, each against a value of spec/ (spec/95_test_vectors.md where a vector is named), and
for every statement with hypotheses a witness that meets them. -/

namespace Sys2Proof.Tests

open Sys2Proof.Machine

/-! ## Well-formedness refuses an instruction its context does not select (spec/30_encoding.md R79) -/

theorem test_wf_start_needs_ctrl : Instr.wellFormedIn (.record .bc1) .start = false := by decide
theorem test_wf_bc1_needs_bc1 : Instr.wellFormedIn (.record .bc2) (.blkBC1 0 0 0) = false := by decide
theorem test_wf_bc2_needs_bc2 : Instr.wellFormedIn (.record .bc3) (.blkBC2 0 0 0 0) = false := by decide
theorem test_wf_bc3_needs_bc3 : Instr.wellFormedIn (.record (.other 3)) (.blkBC3 0 0 0 0 0 0) = false := by decide
theorem test_wf_csel4_needs_four : Instr.wellFormedIn (.colour .bc1 false) .csel4_3 = false := by decide
theorem test_wf_csel3_needs_bc1 : Instr.wellFormedIn (.colour .bc2 false) .csel3_3 = false := by decide
theorem test_wf_aexp_needs_bc2 : Instr.wellFormedIn (.alpha .bc3 true) (.aexp 5) = false := by decide
theorem test_wf_agrad6_needs_grad6 : Instr.wellFormedIn (.alpha .bc3 false) .agrad6_2 = false := by decide
theorem test_wf_agrad4_needs_grad4 : Instr.wellFormedIn (.alpha .bc3 true) .agrad4_7 = false := by decide

/-! ## Decoding: words written out from the spec's encodings -/

/-- spec/10_state.md R13: bit 0 is START, bits 31:1 are ignored. -/
theorem test_decode_start : decode .ctrl [0x01, 0x00, 0x00, 0x80] = .ok (.start, []) := by rfl
theorem test_decode_no_start : decode .ctrl [0xFE, 0xFF, 0xFF, 0xFF] = .error .notStart := by rfl

/-- Vector B1-6: `bc1 c0=0x1234 c1=0x0821 idx=0xE4E4E4E4`. -/
theorem test_decode_bc1 :
    decode (.record .bc1) [0x34, 0x12, 0x21, 0x08, 0xE4, 0xE4, 0xE4, 0xE4] =
      .ok (.blkBC1 0x1234 0x0821 0xE4E4E4E4, []) := by rfl

/-- Vector B2-1: nibble `i` of the record is `i`. -/
theorem test_decode_bc2 :
    decode (.record .bc2)
      [0x10, 0x32, 0x54, 0x76, 0x98, 0xBA, 0xDC, 0xFE, 0x1F, 0x00, 0x00, 0xF8, 0xE4, 0xE4, 0xE4, 0xE4] =
      .ok (.blkBC2 0xFEDCBA9876543210 0x001F 0xF800 0xE4E4E4E4, []) := by rfl

/-- Vector B3-1: `ai = 0xFAC688FAC688`. -/
theorem test_decode_bc3 :
    decode (.record .bc3)
      [0xC8, 0x64, 0x88, 0xC6, 0xFA, 0x88, 0xC6, 0xFA, 0xFF, 0xFF, 0x00, 0x00, 0x00, 0x00, 0x00, 0x00] =
      .ok (.blkBC3 200 100 0xFAC688FAC688 0xFFFF 0x0000 0x00000000, []) := by rfl

/-- spec/30_encoding.md R79, R80: a tag that is no format, and a record that is too short, are rejected by name. -/
theorem test_decode_no_format : decode (.record (.other 7)) [0x01] = .error .notAFormat := by rfl
theorem test_decode_short : decode (.record .bc2) [0x10, 0x32, 0x54, 0x76, 0x98, 0xBA, 0xDC, 0xFE] = .error .tooShort := by
  rfl

/-- spec/30_encoding.md R79: code `k` selects entry `k` of the table its mode builds. -/
theorem test_decode_csel4 :
    [0x00, 0x01, 0x02, 0x03].map (fun b => (decode (.colour .bc1 true) [b]).toOption) =
      [some (.csel4_0, []), some (.csel4_1, []), some (.csel4_2, []), some (.csel4_3, [])] := by decide
theorem test_decode_csel3 :
    [0x00, 0x01, 0x02, 0x03].map (fun b => (decode (.colour .bc1 false) [b]).toOption) =
      [some (.csel3_0, []), some (.csel3_1, []), some (.csel3_2, []), some (.csel3_3, [])] := by decide
theorem test_decode_csel_bc2_bc3 :
    (decode (.colour .bc2 false) [0x03]).toOption = some (.csel4_3, []) ∧
      (decode (.colour .bc3 false) [0x02]).toOption = some (.csel4_2, []) := by decide
theorem test_decode_aexp : (decode (.alpha .bc2 false) [0x0A]).toOption = some (.aexp 10, []) := by decide
theorem test_decode_agrad6 :
    [0x00, 0x01, 0x02, 0x03, 0x04, 0x05, 0x06, 0x07].map (fun b => (decode (.alpha .bc3 true) [b]).toOption) =
      [some (.agrad6_0, []), some (.agrad6_1, []), some (.agrad6_2, []), some (.agrad6_3, []),
        some (.agrad6_4, []), some (.agrad6_5, []), some (.agrad6_6, []), some (.agrad6_7, [])] := by decide
theorem test_decode_agrad4 :
    [0x00, 0x01, 0x02, 0x03, 0x04, 0x05, 0x06, 0x07].map (fun b => (decode (.alpha .bc3 false) [b]).toOption) =
      [some (.agrad4_0, []), some (.agrad4_1, []), some (.agrad4_2, []), some (.agrad4_3, []),
        some (.agrad4_4, []), some (.agrad4_5, []), some (.agrad4_6, []), some (.agrad4_7, [])] := by decide
theorem test_decode_no_alpha_in_bc1 : (decode (.alpha .bc1 true) [0x00]).toOption = none := by decide

/-- A table word is laid out lowest bit first (spec/30_encoding.md R70). -/
theorem test_table_words :
    decodeTableWord 32 0x80000001 = some .start ∧
      decodeTableWord 64 0xE4E4E4E4001FF800 = some (.blkBC1 0xF800 0x001F 0xE4E4E4E4) ∧
      decodeTableWord 8 3 = some .csel4_3 ∧ decodeTableWord 8 5 = some .agrad6_5 ∧
      decodeTableWord 8 12 = some (.aexp 12) := by decide

/-- The encoder's bytes are the vector's (B3-6). -/
theorem test_encode_bc3 :
    encode (.blkBC3 200 100 0xE00000038000 0xFFFF 0 0) =
      [0xC8, 0x64, 0x00, 0x80, 0x03, 0x00, 0x00, 0xE0, 0xFF, 0xFF, 0x00, 0x00, 0x00, 0x00, 0x00, 0x00] := by decide

/-! ## The textual form (spec/30_encoding.md R83, R84) -/

theorem test_text_bc1 :
    parseRecord "bc1 c0=0xF800 c1=0x001F idx=[0,1,2,3,0,1,2,3,0,1,2,3,0,1,2,3] ; a comment".toList =
      some (.blkBC1 0xF800 0x001F 0xE4E4E4E4) := by decide +kernel
theorem test_text_bc3 :
    parseRecord "bc3 a0=200 a1=100 ai=[0,1,2,3,4,5,6,7,0,1,2,3,4,5,6,7] c0=0xFFFF c1=0x0000 idx=0x00000000".toList =
      some (.blkBC3 200 100 0xFAC688FAC688 0xFFFF 0 0) := by decide +kernel
theorem test_text_code_out_of_range :
    parseRecord "bc1 c0=0 c1=0 idx=[0,1,2,4,0,1,2,3,0,1,2,3,0,1,2,3]".toList = none := by decide +kernel

/-- Program P1. -/
theorem test_text_image :
    parseImage [".image fmt=BC1 w=4 h=4".toList, "bc1 c0=0xFFFF c1=0x0000 idx=0x00000000".toList] =
      some ⟨1, 4, 4, 8, [0xFF, 0xFF, 0x00, 0x00, 0x00, 0x00, 0x00, 0x00]⟩ := by decide +kernel

/-! ## Small states -/

/-- `f` of the next state, none where there is none. -/
def ofNext (o : Host.Outcome State Fault Refusal) (f : State → Nat) : Option Nat :=
  match o with
  | .next t => some (f t)
  | _ => none

/-- Does the machine stop with this refusal? -/
def isRefused (o : Host.Outcome State Fault Refusal) (r : Refusal) : Bool :=
  match o with
  | .refused x => decide (x = r)
  | _ => false

/-- A texel as `RRGGBBAA` (spec/20_memory.md R43). -/
def rgba (p : RGBA) : Nat := ((p.r.toNat * 256 + p.g.toNat) * 256 + p.b.toNat) * 256 + p.a.toNat

/-- The pixel at byte offset `a` of `OUT` as `RRGGBBAA`. -/
def pixelAt (s : State) (a : Nat) : Nat :=
  rgba ⟨Memory.read s.outMem a, Memory.read s.outMem (a + 1), Memory.read s.outMem (a + 2), Memory.read s.outMem (a + 3)⟩

/-- A run of a 5x5 BC1 image (table X1) at block `(bx, by)`, `DEC`'s turn next. -/
def at5x5 (bx by' : Nat) : State :=
  { State.reset with
    regs := { HostRegs.reset with status := .busy }
    run := ⟨.bc1, 5, 5, 32, 2, 2, 8, (by' * 2 + bx) * 8, bx, by'⟩ }

/-- A one-block run of a 4x4 image in format `f`, `DEC`'s turn next. -/
def at4x4 (f : Format) (bsz : Nat) : State :=
  { State.reset with
    regs := { HostRegs.reset with status := .busy }
    run := ⟨f, 4, 4, BitVec.ofNat 32 bsz, 1, 1, bsz, 0, 0, 0⟩ }

/-- An idle machine with these register values. -/
def configured (format width height len : Word) : State :=
  { State.reset with regs := ⟨.idle, none, format, width, height, len⟩ }

/-- A lane with these endpoints, in format `f`. -/
def laneWith (f : Format) (c0 c1 : Colour565) (a0 a1 : Byte) : State :=
  { State.reset with
    run := { Run.reset with f := f }
    lane := ⟨c0, c1, a0, a1, ⟨1, 2, 3, 4⟩⟩ }

/-- The 4x4 run after it is done, with `STATUS` not read yet. -/
def doneUnseen : State :=
  { State.reset with
    regs := { HostRegs.reset with status := .done }
    run := ⟨.bc1, 4, 4, 8, 1, 1, 8, 8, 0, 1⟩
    host := { HostSide.reset with seen := false } }

/-! ## Values -/

/-- spec/40_endpoint_palette.md R103, section 2.1 of the vectors. -/
theorem test_endpoints :
    rgb565to888 0x1234 = ⟨16, 69, 164⟩ ∧ rgb565to888 0xABCD = ⟨173, 121, 107⟩ ∧ rgb565to888 0xF800 = ⟨255, 0, 0⟩ ∧
      rgb565to888 0x001F = ⟨0, 0, 255⟩ ∧ rgb565to888 0x0821 = ⟨8, 4, 8⟩ := by decide

/-- spec/40_endpoint_palette.md R102. -/
theorem test_expand5_table :
    (List.range 32).map (fun v => (expand5 (BitVec.ofNat 5 v)).toNat) =
      [0, 8, 16, 25, 33, 41, 49, 58, 66, 74, 82, 90, 99, 107, 115, 123, 132, 140, 148, 156, 164, 173, 181, 189, 197,
        205, 214, 222, 230, 238, 247, 255] := by decide

/-- spec/40_endpoint_palette.md R102, the values around which the substitutes differ. -/
theorem test_expand6_values :
    [0, 10, 11, 15, 16, 32, 47, 48, 53, 54, 63].map (fun v => (expand6 (BitVec.ofNat 6 v)).toNat) =
      [0, 40, 45, 61, 65, 130, 190, 194, 214, 219, 255] := by decide

/-- Table A3. -/
theorem test_alpha_tables :
    (List.range 8).map (fun k => (alphaTable 200 100 (BitVec.ofNat 3 k)).toNat) =
        [200, 100, 185, 171, 157, 142, 128, 114] ∧
      (List.range 8).map (fun k => (alphaTable 100 200 (BitVec.ofNat 3 k)).toNat) =
        [100, 200, 120, 140, 160, 180, 0, 255] ∧
      (List.range 8).map (fun k => (alphaTable 77 77 (BitVec.ofNat 3 k)).toNat) =
        [77, 77, 77, 77, 77, 77, 0, 255] := by decide

/-! ## Selector codes, one step of one lane each (sections 2.2, 2.4 and 2.5 of the vectors) -/

theorem test_csel4_0 : ofNext (exec .csel4_0 (laneWith .bc1 0x1234 0x0821 0 0)) (rgba ·.lane.texel) = some 0x1045A4FF := by decide
theorem test_csel4_1 : ofNext (exec .csel4_1 (laneWith .bc1 0x1234 0x0821 0 0)) (rgba ·.lane.texel) = some 0x080408FF := by decide
theorem test_csel4_2 : ofNext (exec .csel4_2 (laneWith .bc1 0x1234 0x0821 0 0)) (rgba ·.lane.texel) = some 0x0D2F70FF := by decide
theorem test_csel4_3 : ofNext (exec .csel4_3 (laneWith .bc1 0x1234 0x0821 0 0)) (rgba ·.lane.texel) = some 0x0A193CFF := by decide
theorem test_csel3_0 : ofNext (exec .csel3_0 (laneWith .bc1 0x0821 0x1234 0 0)) (rgba ·.lane.texel) = some 0x080408FF := by decide
theorem test_csel3_1 : ofNext (exec .csel3_1 (laneWith .bc1 0x0821 0x1234 0 0)) (rgba ·.lane.texel) = some 0x1045A4FF := by decide
theorem test_csel3_2 : ofNext (exec .csel3_2 (laneWith .bc1 0x0821 0x1234 0 0)) (rgba ·.lane.texel) = some 0x0C2456FF := by decide
theorem test_csel3_3 : ofNext (exec .csel3_3 (laneWith .bc1 0x0821 0x1234 0 0)) (rgba ·.lane.texel) = some 0 := by decide
theorem test_aexp : ofNext (exec (.aexp 11) (laneWith .bc2 0 0 0 0)) (rgba ·.lane.texel) = some 0x010203BB := by decide
theorem test_agrad6_0 : ofNext (exec .agrad6_0 (laneWith .bc3 0 0 200 100)) (rgba ·.lane.texel) = some 0x010203C8 := by decide
theorem test_agrad6_1 : ofNext (exec .agrad6_1 (laneWith .bc3 0 0 200 100)) (rgba ·.lane.texel) = some 0x01020364 := by decide
theorem test_agrad6_2 : ofNext (exec .agrad6_2 (laneWith .bc3 0 0 200 100)) (rgba ·.lane.texel) = some 0x010203B9 := by decide
theorem test_agrad6_3 : ofNext (exec .agrad6_3 (laneWith .bc3 0 0 200 100)) (rgba ·.lane.texel) = some 0x010203AB := by decide
theorem test_agrad6_4 : ofNext (exec .agrad6_4 (laneWith .bc3 0 0 200 100)) (rgba ·.lane.texel) = some 0x0102039D := by decide
theorem test_agrad6_5 : ofNext (exec .agrad6_5 (laneWith .bc3 0 0 200 100)) (rgba ·.lane.texel) = some 0x0102038E := by decide
theorem test_agrad6_6 : ofNext (exec .agrad6_6 (laneWith .bc3 0 0 200 100)) (rgba ·.lane.texel) = some 0x01020380 := by decide
theorem test_agrad6_7 : ofNext (exec .agrad6_7 (laneWith .bc3 0 0 200 100)) (rgba ·.lane.texel) = some 0x01020372 := by decide
theorem test_agrad4_0 : ofNext (exec .agrad4_0 (laneWith .bc3 0 0 100 200)) (rgba ·.lane.texel) = some 0x01020364 := by decide
theorem test_agrad4_1 : ofNext (exec .agrad4_1 (laneWith .bc3 0 0 100 200)) (rgba ·.lane.texel) = some 0x010203C8 := by decide
theorem test_agrad4_2 : ofNext (exec .agrad4_2 (laneWith .bc3 0 0 100 200)) (rgba ·.lane.texel) = some 0x01020378 := by decide
theorem test_agrad4_3 : ofNext (exec .agrad4_3 (laneWith .bc3 0 0 100 200)) (rgba ·.lane.texel) = some 0x0102038C := by decide
theorem test_agrad4_4 : ofNext (exec .agrad4_4 (laneWith .bc3 0 0 100 200)) (rgba ·.lane.texel) = some 0x010203A0 := by decide
theorem test_agrad4_5 : ofNext (exec .agrad4_5 (laneWith .bc3 0 0 100 200)) (rgba ·.lane.texel) = some 0x010203B4 := by decide
theorem test_agrad4_6 : ofNext (exec .agrad4_6 (laneWith .bc3 0 0 100 200)) (rgba ·.lane.texel) = some 0x01020300 := by decide
theorem test_agrad4_7 : ofNext (exec .agrad4_7 (laneWith .bc3 0 0 100 200)) (rgba ·.lane.texel) = some 0x010203FF := by decide

/-- A step runs the code in the lane's own mode: with `C0 <= C1` in BC1, code 3 is transparent black (R79, R106). -/
theorem test_step_code :
    ofNext (step ((laneWith .bc1 0x0821 0x1234 0 0).withAgenda [.code .colour 3])) (rgba ·.lane.texel) = some 0 ∧
      ofNext (step ((laneWith .bc3 0x0821 0x1234 0 0).withAgenda [.code .colour 3])) (rgba ·.lane.texel) =
        some 0x0D2F70FF ∧
      isRefused (step ((laneWith .bc1 0 0 0 0).withAgenda [.code .alpha 3])) .noSuchCode = true := by decide

/-! ## Block operations -/

/-- Vector B1-4 in a 4x4 image: row 0, and texel 3 of row 3; then DONE with `CUR = 8`. -/
theorem test_blkBC1_tile :
    [0, 4, 8, 12, 60].map (fun a => ofNext (exec (.blkBC1 0x001F 0xF800 0xE4E4E4E4) (at4x4 .bc1 8)) (pixelAt · a)) =
      [some 0x0000FFFF, some 0xFF0000FF, some 0x7F007FFF, some 0, some 0] ∧
    ofNext (exec (.blkBC1 0x001F 0xF800 0xE4E4E4E4) (at4x4 .bc1 8)) (fun t => t.regs.status.code.toNat * 100 + t.run.cur) =
      some 208 := by decide +kernel

/-- Program P2, block (1,1): one texel stored, at offset 96; nothing beyond; the run is done with `CUR = 32`. -/
theorem test_blkBC1_clip :
    ofNext (exec (.blkBC1 0xFFFF 0x0000 0x00000001) (at5x5 1 1)) (fun t => t.outMem.length) = some 1 ∧
    ofNext (exec (.blkBC1 0xFFFF 0x0000 0x00000001) (at5x5 1 1)) (pixelAt · 96) = some 0x000000FF ∧
    ofNext (exec (.blkBC1 0xFFFF 0x0000 0x00000001) (at5x5 1 1)) (fun t => t.regs.status.code.toNat * 100 + t.run.cur) =
      some 232 := by decide +kernel

/-- Vector B2-2, rows 0 and 3. -/
theorem test_blkBC2_tile :
    [0, 4, 8, 12, 48, 52, 56, 60].map (fun a =>
      ofNext (exec (.blkBC2 0xA500000000000FF0 0xF800 0x001F 0xE4E4E4E4) (at4x4 .bc2 16)) (pixelAt · a)) =
      [some 0xFF000000, some 0x0000FFFF, some 0xAA0055FF, some 0x5500AA00,
        some 0xFF000000, some 0x0000FF00, some 0xAA005555, some 0x5500AAAA] := by decide +kernel

/-- Vector B3-6: alpha codes that straddle bytes; and vector B3-3: grad4 mode, colour code 3 with `C0 < C1`. -/
theorem test_blkBC3_tile :
    [0, 20, 60].map (fun a =>
      ofNext (exec (.blkBC3 200 100 0xE00000038000 0xFFFF 0x0000 0x00000000) (at4x4 .bc3 16)) (pixelAt · a)) =
      [some 0xFFFFFFC8, some 0xFFFFFF72, some 0xFFFFFF72] ∧
    [0, 24, 28].map (fun a =>
      ofNext (exec (.blkBC3 77 77 0xFAC688FAC688 0x001F 0xF800 0xFFFFFFFF) (at4x4 .bc3 16)) (pixelAt · a)) =
      [some 0xAA00554D, some 0xAA005500, some 0xAA0055FF] := by decide +kernel

/-- Table X1: block (0,0) of the 5x5 image goes on to block (1,0), and the row ends at `NBX`. -/
theorem test_block_advance :
    ofNext (exec (.blkBC1 0 0 0) (at5x5 0 0)) (fun t => (t.run.cur * 10 + t.run.blkX) * 10 + t.run.blkY) = some 810 ∧
    ofNext (exec (.blkBC1 0 0 0) (at5x5 1 0)) (fun t => (t.run.cur * 10 + t.run.blkX) * 10 + t.run.blkY) = some 1601 := by
  decide +kernel

/-- A step fetches at the cursor: the record of block (1,0) lies at offset 8 (table X1). -/
theorem test_step_fetches :
    ofNext (step { at5x5 1 0 with inMem := writeBytes [] 8 [0x1F, 0x00, 0x00, 0xF8, 0x00, 0x00, 0x00, 0x00] })
      (pixelAt · 16) = some 0x0000FFFF := by decide +kernel

/-! ## START (section 2.7 of the vectors) -/

/-- E1, E3, E5, E8, E11: the error codes. -/
theorem test_start_errors :
    ofNext (exec .start (configured 1 5 5 31)) (fun t => t.regs.status.code.toNat * 10 + (errCode t.regs.err).toNat) = some 31 ∧
    ofNext (exec .start (configured 0 5 5 32)) (fun t => t.regs.status.code.toNat * 10 + (errCode t.regs.err).toNat) = some 32 ∧
    ofNext (exec .start (configured 1 0 5 32)) (fun t => t.regs.status.code.toNat * 10 + (errCode t.regs.err).toNat) = some 33 ∧
    ofNext (exec .start (configured 3 4 4 8)) (fun t => t.regs.status.code.toNat * 10 + (errCode t.regs.err).toNat) = some 31 ∧
    ofNext (exec .start (configured 2 0x80000000 1 0xFFFFFFFF))
      (fun t => t.regs.status.code.toNat * 10 + (errCode t.regs.err).toNat) = some 31 := by decide +kernel

/-- E2: `NBX = NBY = 2`, BUSY, `ERR` none; E10: START in BUSY is ignored. -/
theorem test_start_begins :
    ofNext (exec .start (configured 1 5 5 32)) (fun t => (t.run.nbx * 10 + t.run.nby) * 10 + t.regs.status.code.toNat) = some 221 ∧
    ofNext (exec .start (at5x5 1 1)) (fun t => t.run.cur * 10 + t.regs.status.code.toNat) = some 241 := by decide +kernel

/-- spec/20_memory.md R50: a launch into an `OUT` of 99 bytes is refused, into 100 it is not. -/
theorem test_start_buffers :
    isRefused (exec .start { configured 1 5 5 32 with host := { HostSide.reset with bufs := ⟨0, 32, 32, 99⟩ } })
      .launchNotAdmitted = true ∧
    ofNext (exec .start { configured 1 5 5 32 with host := { HostSide.reset with bufs := ⟨0, 32, 32, 100⟩ } })
      (fun t => t.regs.status.code.toNat) = some 1 := by decide +kernel

/-! ## The host -/

/-- spec/10_state.md R12, R13: `CTRL` reads 0, `STATUS` is read only, a number outside 0 to 6 is refused. -/
theorem test_host_registers :
    ofNext (step (State.reset.withAgenda [.host (.write 4 77)])) (fun t => t.regs.width.toNat) = some 77 ∧
    ofNext (step (State.reset.withAgenda [.host (.write 1 2)])) (fun t => t.regs.status.code.toNat) = some 0 ∧
    ofNext (step ((at5x5 0 0).withAgenda [.host (.read 1)])) (fun t => t.host.rdata.toNat) = some 1 ∧
    isRefused (step (State.reset.withAgenda [.host (.read 7)])) (.noSuchRegister 7) = true := by decide +kernel

/-- spec/00_scope.md R6, spec/10_state.md R11, R13: with `REG_BASE` 0x100 and a stride of 8, `WIDTH` (number 4) lies at
0x120 and `CTRL` at 0x100; 0x124 and 0x138 name no register, and nothing does when the stride is 0. -/
theorem test_bus_addresses :
    let at' (base stride : Nat) (b : BusCmd) : State :=
      { State.reset with host := { HostSide.reset with regFile := ⟨base, stride⟩, agenda := [.bus b] } }
    ofNext (step (at' 0x100 8 (.write 0x120 77))) (fun t => t.regs.width.toNat) = some 77 ∧
    ofNext (step (at' 0x100 8 (.write 0x100 1))) (fun t => (errCode t.regs.err).toNat) = some 2 ∧
    isRefused (step (at' 0x100 8 (.write 0x124 77))) (.noRegisterAt 0x124) = true ∧
    isRefused (step (at' 0x100 8 (.read 0x138))) (.noRegisterAt 0x138) = true ∧
    isRefused (step (at' 0x100 0 (.read 0x100))) (.noRegisterAt 0x100) = true := by decide +kernel

/-- spec/20_memory.md R50: seven registers of four bytes from address 100 on take addresses 100 to 127. -/
theorem test_register_file_clear :
    RegFile.clearOf ⟨100, 4⟩ 0 100 = true ∧ RegFile.clearOf ⟨100, 4⟩ 0 101 = false ∧
      RegFile.clearOf ⟨100, 4⟩ 128 9 = true ∧ RegFile.clearOf ⟨100, 4⟩ 127 9 = false := by decide

/-- spec/20_memory.md R56: a host write to a byte of the run is refused, one beyond `REQ` is not. -/
theorem test_host_races :
    isRefused (step ((at5x5 0 0).withAgenda [.host (.writeIn 31 1)])) .hostRace = true ∧
    ofNext (step ((at5x5 0 0).withAgenda [.host (.writeIn 32 7)])) (fun t => (Memory.read t.inMem 32).toNat) = some 7 ∧
    isRefused (step ((at5x5 0 0).withAgenda [.host (.writeOut 99 1)])) .hostRace = true ∧
    ofNext (step ((at5x5 0 0).withAgenda [.host (.writeOut 100 7)])) (fun t => (Memory.read t.outMem 100).toNat) = some 7 := by
  decide +kernel

/-- The word that the next step fetches runs first after reset. -/
theorem test_fetch_word :
    ofNext (step (State.reset.withFetchWord 32 1)) (fun t => t.regs.status.code.toNat) = some 3 ∧
    ofNext (step (State.reset.withFetchWord 64 0x001F)) (fun t => t.run.cur) = some 8 ∧
    ofNext (step (State.reset.withFetchWord 8 7)) (fun t => t.lane.texel.a.toNat) = some 0 ∧
    ofNext (step (State.reset.withFetchWord 8 9)) (fun t => t.lane.texel.a.toNat) = some 153 := by decide +kernel

/-- The memory's canonical form: a zero written removes the entry. -/
theorem test_memory_canonical :
    Memory.write [(3, 1), (5, 2)] 3 0 = [(5, 2)] ∧ Memory.write [(3, 1), (5, 2)] 4 9 = [(3, 1), (4, 9), (5, 2)] ∧
      Memory.wf [(3, 1), (3, 2)] = false ∧ Memory.wf [(3, 0)] = false := by decide

/-! ## Witnesses: for every statement with hypotheses, a case that meets all of them -/

theorem witness_DecodeOfEncode :
    Instr.wellFormedIn (.record .bc3) (.blkBC3 255 0 0xFFFFFFFFFFFF 0xFFFF 0 0xFFFFFFFF) = true ∧
      Instr.wellFormedIn .ctrl .start = true ∧ Instr.wellFormedIn (.alpha .bc2 false) (.aexp 15) = true := by decide

theorem witness_EncodeOfDecode :
    Ctx.alpha .bc3 true ≠ .ctrl ∧ decode (.alpha .bc3 true) [7, 1] = .ok (.agrad6_7, [1]) := by
  exact ⟨by decide, rfl⟩

theorem witness_EveryRecordIsLegal :
    ((2 : Word), Format.bc2, 16) ∈ formatRows ∧ (List.replicate 16 (0xFF : Byte)).length = 16 := by decide

theorem witness_RecordFields :
    ([1, 2, 3, 4, 5, 6, 7, 8] : List Byte).length = 8 ∧ (List.replicate 16 (0xA5 : Byte)).length = 16 := by decide

theorem witness_ListForms :
    (List.replicate 16 7).length = 16 ∧ (∀ k ∈ List.replicate 16 7, k < 2 ^ 3) ∧
      (List.replicate 16 3).length = 16 ∧ (∀ k ∈ List.replicate 16 3, k < 2 ^ 2) := by decide

theorem witness_BC1Alpha_zero : (texelBC1 0x0000 0xFFFF 0xFFFFFFFF 15).a = 0 := by decide

/-- Both clauses at the boundary where they meet: `A0 = A1` and `A0 = A1 + 1`. -/
theorem witness_AlphaTables :
    (254 : Byte).toNat < (255 : Byte).toNat ∧ (255 : Byte).toNat ≤ (255 : Byte).toNat ∧
      2 ≤ (2 : BitVec 3).toNat ∧ (2 : BitVec 3).toNat ≤ (7 : BitVec 3).toNat ∧ (5 : BitVec 3).toNat ≤ 5 := by decide

theorem witness_colour_endpoints :
    (⟨16, 69, 164⟩ : RGB) = rgb565to888 (laneWith .bc1 0x1234 0x0821 0 0).lane.c0 ∧
      (⟨8, 4, 8⟩ : RGB) = rgb565to888 (laneWith .bc1 0x1234 0x0821 0 0).lane.c1 := by decide

theorem witness_SelectorCodesChangeOnlyTheTexel :
    (∃ t, exec .agrad4_7 State.reset = .next t) ∧ Instr.agrad4_7 ∈ alphaCodes ∧ Instr.agrad4_7 ∉ colourCodes ∧
      (∃ t, exec .csel3_2 State.reset = .next t) ∧ Instr.csel3_2 ∈ colourCodes := by
  exact ⟨⟨_, rfl⟩, by decide, by decide, ⟨_, rfl⟩, by decide⟩

theorem witness_SelectorCodesMakeTheTexels :
    (laneWith .bc1 5 6 0 0).run.f = .bc1 ∧ (laneWith .bc1 5 6 0 0).lane.c0 = 5 ∧ (laneWith .bc1 5 6 0 0).lane.c1 = 6 ∧
      (laneWith .bc2 6 5 0 0).run.f = .bc2 ∧ (laneWith .bc3 5 6 9 9).run.f = .bc3 ∧
      (laneWith .bc3 5 6 9 9).lane.a0 = 9 ∧ (laneWith .bc3 5 6 9 9).lane.a1 = 9 := by decide

/-- For the three block operations: a run in BUSY with `OUT` in canonical form, with an enabled and a clipped texel. -/
theorem witness_Blk :
    (at5x5 1 1).regs.status = .busy ∧ Memory.wf (at5x5 1 1).outMem = true ∧
      xlat 1 1 0 (at5x5 1 1).run.w (at5x5 1 1).run.h = some 96 ∧ xlat 1 1 1 (at5x5 1 1).run.w (at5x5 1 1).run.h = none := by
  decide

theorem witness_BlockOperationsFrame :
    (∃ t, exec (.blkBC2 1 2 3 4) (at4x4 .bc2 16) = .next t) ∧ (∃ t, exec (.blkBC1 1 2 3) State.reset = .next t) ∧
      State.reset.regs.status ≠ .busy ∧
      (∀ n, n < 16 → ∀ addr, xlat 0 0 n (at4x4 .bc2 16).run.w (at4x4 .bc2 16).run.h = some addr →
        64 < addr ∨ addr + 4 ≤ 64) := by
  refine ⟨⟨_, rfl⟩, ⟨_, rfl⟩, by decide, ?_⟩
  intro n hn addr h
  have := Laws.xlat_inside _ _ _ _ _ _ h
  exact Or.inr this

theorem witness_Xlat : 3 < 4 ∧ 0 < 4 ∧ xlat 1 1 (4 * 0 + 0) 5 5 = some 96 ∧ xlat 1 1 (4 * 0 + 1) 5 5 = none := by decide

theorem witness_Coverage :
    4 < (5 : Word).toNat ∧ 4 < (5 : Word).toNat ∧ 1 < ceil4 (5 : Word).toNat ∧ xlat 1 1 0 5 5 = some (4 * (4 * 5 + 4)) := by
  decide

theorem witness_EdgeBlocks :
    1 < ceil4 (5 : Word).toNat ∧ 0 + 1 < ceil4 (5 : Word).toNat ∧ 0 < ceil4 (5 : Word).toNat := by decide

theorem witness_AcceptedRunsFit : validate .bc1 5 5 32 = .ok 8 := by rfl

theorem witness_StartIgnored : (at5x5 0 0).regs.status = .busy := by decide

theorem witness_StartBegins :
    (configured 1 5 5 32).regs.status ≠ .busy ∧ ((configured 1 5 5 32).regs.format, Format.bc1, 8) ∈ formatRows ∧
      (configured 1 5 5 32).regs.width ≠ 0 ∧ (configured 1 5 5 32).regs.height ≠ 0 ∧
      ((configured 1 5 5 32).regs.width.toNat + 3) / 4 * (((configured 1 5 5 32).regs.height.toNat + 3) / 4) * 8 ≤
        (configured 1 5 5 32).regs.len.toNat ∧
      (configured 1 5 5 32).host.fitRun (configured 1 5 5 32).regs.width (configured 1 5 5 32).regs.height
        (configured 1 5 5 32).regs.len = true := by decide +kernel

/-- One state per clause: an unsupported format, a zero dimension, a buffer one byte too short. -/
theorem witness_StartErrors :
    (configured 4 0 0 0).regs.status ≠ .busy ∧ (configured 4 0 0 0).regs.format ≠ 1 ∧
      (configured 4 0 0 0).regs.format ≠ 2 ∧ (configured 4 0 0 0).regs.format ≠ 3 ∧
      ((configured 1 0 4 0).regs.format, Format.bc1, 8) ∈ formatRows ∧ (configured 1 0 4 0).regs.width = 0 ∧
      ((configured 1 5 5 31).regs.format, Format.bc1, 8) ∈ formatRows ∧
      (configured 1 5 5 31).regs.len.toNat <
        ((configured 1 5 5 31).regs.width.toNat + 3) / 4 * (((configured 1 5 5 31).regs.height.toNat + 3) / 4) * 8 := by
  decide

theorem witness_ErrorEntry :
    (configured 1 5 5 31).regs.status ≠ .busy ∧ validate (Format.ofTag 1) 5 5 31 = .error .unexpectedEndOfData := by
  exact ⟨by decide, rfl⟩

theorem witness_HugeDimensions :
    (configured 2 0x80000000 1 0xFFFFFFFF).regs.status ≠ .busy ∧
      ((configured 2 0x80000000 1 0xFFFFFFFF).regs.format, Format.bc2, 16) ∈ formatRows ∧
      (configured 2 0x80000000 1 0xFFFFFFFF).regs.width ≠ 0 ∧ (configured 2 0x80000000 1 0xFFFFFFFF).regs.height ≠ 0 ∧
      2 ^ 31 ≤ (configured 2 0x80000000 1 0xFFFFFFFF).regs.width.toNat := by decide

/-- One set of buffers per clause: `IN` too small, `OUT` too small, an overlap of one byte, `LEN` (number 6, at 24) in the
last bytes of an `IN` at 27, and `CTRL` in the last byte of an `OUT` at 32. -/
theorem witness_LaunchRefused :
    (configured 1 5 5 32).regs.status ≠ .busy ∧ validate (Format.ofTag 1) 5 5 32 = .ok 8 ∧
      (⟨0, 31, 32, 100⟩ : Buffers).inSize < (32 : Word).toNat ∧
      (⟨0, 32, 32, 99⟩ : Buffers).outSize < 4 * ((5 : Word).toNat * (5 : Word).toNat) ∧
      (⟨0, 32, 31, 100⟩ : Buffers).outBase < (⟨0, 32, 31, 100⟩ : Buffers).inBase + (32 : Word).toNat ∧
      (⟨0, 32, 31, 100⟩ : Buffers).inBase < (⟨0, 32, 31, 100⟩ : Buffers).outBase + 4 * ((5 : Word).toNat * (5 : Word).toNat) ∧
      (⟨27, 32, 99, 100⟩ : Buffers).inBase < (⟨0, 4⟩ : RegFile).base + 6 * (⟨0, 4⟩ : RegFile).stride + 4 ∧
      (⟨0, 4⟩ : RegFile).base + 6 * (⟨0, 4⟩ : RegFile).stride < (⟨27, 32, 99, 100⟩ : Buffers).inBase + (32 : Word).toNat ∧
      (⟨0, 32, 32, 100⟩ : Buffers).outBase < (⟨131, 4⟩ : RegFile).base + 0 * (⟨131, 4⟩ : RegFile).stride + 4 ∧
      (⟨131, 4⟩ : RegFile).base + 0 * (⟨131, 4⟩ : RegFile).stride <
        (⟨0, 32, 32, 100⟩ : Buffers).outBase + 4 * ((5 : Word).toNat * (5 : Word).toNat) := by
  exact ⟨by decide, rfl, by decide, by decide, by decide, by decide, by decide, by decide, by decide, by decide⟩

theorem witness_StartFrame : ∃ t, exec .start (configured 1 5 5 32) = .next t := ⟨_, rfl⟩

theorem witness_StepRecord :
    (at5x5 0 0).regs.status = .busy ∧ (at5x5 0 0).host.agenda = [] ∧
      ((at5x5 0 0).withAgenda [.dec]).host.agenda = [.dec] ∧
      decode (.record (at5x5 0 0).run.f) (fetchBytes (at5x5 0 0).inMem (at5x5 0 0).run.cur (at5x5 0 0).run.bsz) =
        .ok (.blkBC1 0 0 0, []) := by
  exact ⟨by decide, by decide, by decide, rfl⟩

theorem witness_StepStart :
    (State.reset.withAgenda [.host (.write 0 1)]).host.agenda = [.host (.write 0 1)] ∧ (1 : Word).getLsbD 0 = true ∧
      (2 : Word).getLsbD 0 = false := by decide

/-- The bus addresses of registers 0 and 6, and the first address after register 6, with a stride of 1. -/
theorem witness_StepAccess :
    (State.reset.withAgenda [.host .reset]).host.agenda = [.host .reset] ∧ (∀ v, HostCmd.reset ≠ .write 0 v) ∧
      (⟨9, 1⟩ : RegFile).stride ≠ 0 ∧
      (State.reset.withAgenda [.bus (.write 9 5)]).host.agenda =
        [.bus (.write ((⟨9, 1⟩ : RegFile).base + 0 * (⟨9, 1⟩ : RegFile).stride) 5)] ∧
      (State.reset.withAgenda [.bus (.read 15)]).host.agenda =
        [.bus (.read ((⟨9, 1⟩ : RegFile).base + 6 * (⟨9, 1⟩ : RegFile).stride))] ∧
      (∀ idx, idx ≤ 6 → 16 ≠ (⟨9, 1⟩ : RegFile).base + idx * (⟨9, 1⟩ : RegFile).stride) ∧
      (⟨9, 0⟩ : RegFile).stride = 0 := by
  exact ⟨by decide, (fun v h => by cases h), by decide, by decide, by decide, by decide, by decide⟩

theorem witness_StepCode :
    (State.reset.withAgenda [.code .alpha 3]).host.agenda = [.code .alpha 3] ∧
      decode (codeCtx .alpha (laneWith .bc2 0 0 0 0)) [3] = .ok (.aexp 3, []) ∧
      ((laneWith .bc2 0 0 0 0).withAgenda [.code .alpha 3]).host.agenda = [.code .alpha 3] := by
  exact ⟨by decide, rfl, by decide⟩

theorem witness_NothingMoves : State.reset.regs.status ≠ .busy ∧ State.reset.host.agenda = [] := by decide

/-- A run in progress meets the invariant, in its middle and at its last block. -/
theorem witness_Inv_busy :
    (at5x5 1 0).Inv ∧ (at5x5 1 0).regs.status = .busy ∧ (at5x5 1 0).host.agenda = [] ∧ (at5x5 1 1).Inv := by
  unfold State.Inv memoriesSound statusSound Run.inProgress Run.latched at5x5
  decide +kernel

theorem witness_PartialImage : (at4x4 .bc1 8).Inv ∧ PartialImage (at4x4 .bc1 8) ∧
    (at4x4 .bc1 8).regs.status = .busy ∧ (at4x4 .bc1 8).host.agenda = [] := by
  unfold State.Inv memoriesSound statusSound Run.inProgress Run.latched PartialImage at4x4
  decide +kernel

theorem witness_step_next :
    (∃ t, step (at4x4 .bc1 8) = .next t) ∧ (∃ t, step (State.reset.withAgenda [.host (.write 0 1)]) = .next t) ∧
      (∃ t, step ((at4x4 .bc1 8).withAgenda [.host .reset]) = .next t) := by
  exact ⟨⟨_, rfl⟩, ⟨_, rfl⟩, ⟨_, rfl⟩⟩

/-- A step that changes `ERR`: START on the freshly reset machine. -/
theorem witness_ErrWritten :
    ofNext (step (State.reset.withAgenda [.host (.write 0 1)])) (fun t => (errCode t.regs.err).toNat) = some 2 ∧
      (errCode State.reset.regs.err).toNat = 0 := by decide +kernel

theorem witness_InstructionsWriteOnlyTheImage :
    (∃ t, exec (.blkBC1 1 2 3) (at5x5 1 1) = .next t) ∧
      4 * ((at5x5 1 1).run.w.toNat * (at5x5 1 1).run.h.toNat) ≤ 100 := by
  exact ⟨⟨_, rfl⟩, by decide⟩

theorem witness_LatchesHold :
    (at4x4 .bc1 8).regs.status = .busy ∧ (∃ t, step (at4x4 .bc1 8) = .next t) ∧
      ∀ more, (at4x4 .bc1 8).host.agenda ≠ .host .reset :: more := by
  exact ⟨by decide, ⟨_, rfl⟩, fun more h => by cases h⟩

/-- Both outcomes of the contract: a 4x4 image in 8 bytes, and in 7 with no room for it in the buffers. -/
theorem witness_StartComputesDecode :
    memoriesSound (configured 1 4 4 8) ∧ (configured 1 4 4 8).regs.status ≠ .busy ∧
      (configured 1 4 4 8).host.agenda = [] ∧ (configured 1 4 4 8).host.fitRun 4 4 8 = true ∧
      decodeImage [] 7 4 4 (Format.ofTag 1) = .error .unexpectedEndOfData ∧
      ({ HostSide.reset with bufs := ⟨0, 0, 0, 0⟩ } : HostSide).fitRun 4 4 7 = false ∧
      (decodeImage [] 8 4 4 (Format.ofTag 1)).toOption.isSome = true := by
  refine ⟨⟨rfl, rfl, rfl⟩, by decide, by decide, by decide +kernel, rfl, by decide +kernel, by decide +kernel⟩

/-- Registers 3 and 6 are the ends of the first clause's range, 7 the beginning of the last one's. -/
theorem witness_HostRegisterAccess :
    ofNext (hostStep (.read 3) (configured 9 8 7 6)) (fun t => t.host.rdata.toNat) = some 9 ∧
      ofNext (hostStep (.read 6) (configured 9 8 7 6)) (fun t => t.host.rdata.toNat) = some 6 ∧
      isRefused (hostStep (.write 7 1) State.reset) (.noSuchRegister 7) = true := by decide +kernel

/-- The bytes on both sides of every limit: the ends of the buffers, `REQ`, the end of the image in BUSY and in DONE not
read; and a state in which no run owns a byte. -/
theorem witness_HostWrites :
    (at5x5 0 0).regs.status = .busy ∧ 31 < (at5x5 0 0).host.bufs.inSize ∧ 31 < (at5x5 0 0).run.req ∧
      (at5x5 0 0).run.req ≤ 32 ∧ 99 < (at5x5 0 0).host.bufs.outSize ∧
      99 < 4 * ((at5x5 0 0).run.w.toNat * (at5x5 0 0).run.h.toNat) ∧
      4 * ((at5x5 0 0).run.w.toNat * (at5x5 0 0).run.h.toNat) ≤ 100 ∧ 100 < (at5x5 0 0).host.bufs.outSize ∧
      (at5x5 0 0).host.bufs.inSize ≤ 2 ^ 32 ∧ (at5x5 0 0).host.bufs.outSize ≤ 2 ^ 35 ∧
      doneUnseen.regs.status = .done ∧ doneUnseen.host.seen = false ∧
      63 < 4 * (doneUnseen.run.w.toNat * doneUnseen.run.h.toNat) ∧
      4 * (doneUnseen.run.w.toNat * doneUnseen.run.h.toNat) ≤ 64 ∧
      State.reset.regs.status ≠ .busy ∧ State.reset.regs.status ≠ .done ∧ 0 < State.reset.host.bufs.outSize := by
  decide +kernel

theorem witness_HostView :
    63 < doneUnseen.host.bufs.outSize ∧ doneUnseen.regs.status = .done ∧
      63 < (at4x4 .bc1 8).host.bufs.outSize ∧ 63 < imageBytes (at4x4 .bc1 8).run.w (at4x4 .bc1 8).run.h := by
  decide +kernel

end Sys2Proof.Tests
end

section
/-! PROOFS. The contract of spec/00_scope.md R4: a run that is left to `DEC` ends with the image,
START computes `decode` (O53), and the host's accesses in the agenda (O60). -/

namespace Sys2Proof.Proofs

open Sys2Proof.Machine Sys2Proof.Laws

/-! ## The cursor over the block grid -/

/-- The advance keeps the latches and what START derived from them. -/
@[simp] theorem latched_advance (r : Run) : r.advance.latched ↔ r.latched := by
  simp [Run.latched, Run.req]

/-- One block step decodes one block more. -/
@[simp] theorem blocksDone_advance (r : Run) : r.advance.blocksDone = r.blocksDone + 1 := by
  simpa [Run.blocksDone] using advance_blocksDone r

/-- A run in progress has a block left. -/
theorem blocksDone_lt (r : Run) (h : r.inProgress) : r.blocksDone < r.nbx * r.nby := by
  obtain ⟨_, hx, hy, _⟩ := h
  have hrow : (r.blkY + 1) * r.nbx ≤ r.nby * r.nbx := Nat.mul_le_mul_right _ hy
  rw [Nat.add_mul, Nat.mul_comm r.nby] at hrow
  unfold Run.blocksDone
  omega

/-- A completed run has decoded its whole grid. -/
theorem blocksDone_completed (r : Run) (h : r.completed) : r.blocksDone = r.nbx * r.nby := by
  obtain ⟨_, hx, hy, _⟩ := h
  rw [Run.blocksDone, hx, hy, Nat.add_zero, Nat.mul_comm]

/-- The cursor of a run in progress stays at the record of the block named next. -/
theorem cur_advance (r : Run) (h : r.inProgress) : r.advance.cur = r.advance.blocksDone * r.bsz := by
  obtain ⟨_, _, _, hcur⟩ := h
  rw [blocksDone_advance, advance_cur, hcur, Nat.add_mul, Nat.one_mul]

/-- The advance of a run in progress names the next block of the grid, or completes the run after the last one
(spec/44_image_decode.md R186, R191). -/
theorem advance_inProgress_or_completed (r : Run) (h : r.inProgress) : r.advance.inProgress ∨ r.advance.completed := by
  have hcur := cur_advance r h
  obtain ⟨hl, hx, hy, _⟩ := h
  have hl' := (latched_advance r).mpr hl
  by_cases hrow : r.blkX + 1 = r.nbx
  · have hX : r.advance.blkX = 0 := by simp [Run.advance, hrow]
    have hY : r.advance.blkY = r.blkY + 1 := by simp [Run.advance, hrow]
    by_cases hlast : r.blkY + 1 = r.nby
    · have hdone : r.advance.blocksDone = r.nbx * r.nby := by
        rw [Run.blocksDone, hX, hY, hlast, advance_nbx, Nat.add_zero, Nat.mul_comm]
      exact Or.inr ⟨hl', hX, by rw [hY, advance_nby, hlast], by rw [hcur, hdone]; simp [Run.req]⟩
    · exact Or.inl ⟨hl', by rw [hX, advance_nbx]; omega, by rw [hY, advance_nby]; omega, by rw [hcur, advance_bsz]⟩
  · have hX : r.advance.blkX = r.blkX + 1 := by simp [Run.advance, hrow]
    have hY : r.advance.blkY = r.blkY := by simp [Run.advance, hrow]
    exact Or.inl ⟨hl', by rw [hX, advance_nbx]; omega, by rw [hY, advance_nby]; exact hy, by rw [hcur, advance_bsz]⟩

/-- While a block is left, `STATUS` stays BUSY. -/
theorem statusAfter_inProgress (r : Run) (h : r.inProgress) : statusAfter r = .busy := by
  obtain ⟨_, _, hy, _⟩ := h
  exact if_neg (Nat.ne_of_lt hy)

/-- A whole grid makes `STATUS` DONE (spec/44_image_decode.md R191). -/
theorem statusAfter_completed (r : Run) (h : r.completed) : statusAfter r = .done := by
  obtain ⟨_, _, hy, _⟩ := h
  exact if_pos hy

/-! ## The block a byte of the image belongs to -/

/-- The pixel of a byte of the image is inside the image. -/
theorem pixel_lt (w h : Word) (a : Nat) (ha : a < imageBytes w h) :
    a / 4 % w.toNat < w.toNat ∧ a / 4 / w.toNat < h.toNat := by
  unfold imageBytes at ha
  have hp : a / 4 < w.toNat * h.toNat := by omega
  exact ⟨Nat.mod_lt _ (Nat.pos_of_lt_mul_right hp), Nat.div_lt_of_lt_mul hp⟩

/-- The block of a byte of the image is in the grid (spec/44_image_decode.md R190). -/
theorem block_lt (r : Run) (hl : r.latched) (a : Nat) (ha : a < imageBytes r.w r.h) :
    a / 4 % r.w.toNat / 4 < r.nbx ∧ a / 4 / r.w.toNat / 4 < r.nby := by
  obtain ⟨hx, hy⟩ := pixel_lt r.w r.h a ha
  obtain ⟨_, _, _, hnbx, hnby, _⟩ := hl
  rw [hnbx, hnby]
  unfold ceil4
  omega

/-- A byte's block has one of the numbers of the grid. -/
theorem blockOfByte_lt (r : Run) (hl : r.latched) (a : Nat) (ha : a < imageBytes r.w r.h) :
    blockOfByte r a < r.nbx * r.nby := by
  obtain ⟨hx, hy⟩ := block_lt r hl a ha
  have hrow : (a / 4 / r.w.toNat / 4 + 1) * r.nbx ≤ r.nby * r.nbx := Nat.mul_le_mul_right _ hy
  rw [Nat.add_mul, Nat.mul_comm r.nby] at hrow
  unfold blockOfByte
  omega

/-- A byte belongs to the block named next exactly when its pixel's coordinates say so. -/
theorem blockOfByte_eq_blocksDone (r : Run) (h : r.inProgress) (a : Nat) (ha : a < imageBytes r.w r.h) :
    blockOfByte r a = r.blocksDone ↔ a / 4 % r.w.toNat / 4 = r.blkX ∧ a / 4 / r.w.toNat / 4 = r.blkY := by
  obtain ⟨hl, hX, _, _⟩ := h
  have hx := (block_lt r hl a ha).1
  constructor
  · intro he
    obtain ⟨hy, hx⟩ := mul_add_unique r.nbx _ _ _ _ hx hX he
    exact ⟨hx, hy⟩
  · rintro ⟨hx, hy⟩
    rw [blockOfByte, hx, hy, Run.blocksDone]

/-- The number of a byte's block does not change while the run advances. -/
@[simp] theorem blockOfByte_advance (r : Run) (a : Nat) : blockOfByte r.advance a = blockOfByte r a := by
  simp [blockOfByte]

/-! ## `DEC`'s turn -/

/-- `texel` are the texels of the record at the cursor. -/
def TexelsAtCursor (texel : Nat → RGBA) (s : State) : Prop :=
  ∃ i, decodeRecord s.run.f (memRead s.inMem s.run.cur s.run.bsz) = .ok i ∧ ∀ n, recordTexel i n = some (texel n)

/-- The state after a block step of a run that stored `texel` (spec/44_image_decode.md R186). -/
def afterBlock (texel : Nat → RGBA) (s : State) : State :=
  { s with
    outMem := storeTile s.run.w s.run.h s.run.blkX s.run.blkY texel s.outMem
    run := s.run.advance
    regs := { s.regs with status := statusAfter s.run.advance } }

/-- In BUSY the block step is enabled, and is made. -/
theorem blockStep_busy (texel : Nat → RGBA) (s : State) (hb : s.regs.status = .busy) :
    blockStep texel s = .next (afterBlock texel s) :=
  if_pos hb

/-- An instruction that has texels is a record, and runs the block step that stores them. -/
theorem exec_eq_blockStep (i : Instr) (texel : Nat → RGBA) (s : State) (h : ∀ n, recordTexel i n = some (texel n)) :
    exec i s = blockStep texel s := by
  cases i with
  | blkBC1 c0 c1 idx =>
    obtain rfl : texelBC1 c0 c1 idx = texel := funext fun n => Option.some.inj (h n)
    rfl
  | blkBC2 aexp c0 c1 idx =>
    obtain rfl : texelBC2 aexp c0 c1 idx = texel := funext fun n => Option.some.inj (h n)
    rfl
  | blkBC3 a0 a1 aidx c0 c1 idx =>
    obtain rfl : texelBC3 a0 a1 aidx c0 c1 idx = texel := funext fun n => Option.some.inj (h n)
    rfl
  | _ => cases h 0

/-- Where the latched block size is the latched format's, `DEC`'s turn in BUSY stores the texels of the record at the
cursor: it meets no fourth case (spec/44_image_decode.md R186). -/
theorem step_busy (s : State) (hb : s.regs.status = .busy) (ha : s.host.agenda = [])
    (hf : s.run.f.size? = some s.run.bsz) :
    ∃ texel, TexelsAtCursor texel s ∧ step s = .next (afterBlock texel s) := by
  obtain ⟨i, hi, hd⟩ := decode_record s.run.f (fetchBytes s.inMem s.run.cur s.run.bsz) (by simpa using hf)
  obtain ⟨texel, ht⟩ := recordTexel_of_record _ _ i hi
  have hissue : issue s = .instruction i s := by
    simp only [issue, ha, issueDec, hb, if_true, hd]
  refine ⟨texel, ⟨i, hi, ht⟩, ?_⟩
  rw [← blockStep_busy texel s hb, ← exec_eq_blockStep i texel s ht]
  simp only [step, hissue]

/-! ## The pixels of `decode` -/

/-- A pixel is a texel of its block's record (spec/44_image_decode.md R187, R190). -/
theorem imagePixel_of_record (inp : Memory) (f : Format) (w : Word) (x y bsz : Nat) (i : Instr)
    (hf : f.size? = some bsz)
    (hi : decodeRecord f (memRead inp ((y / 4 * ceil4 w.toNat + x / 4) * bsz) bsz) = .ok i) :
    imagePixel inp f w x y = recordTexel i (4 * (y % 4) + x % 4) := by
  simp only [imagePixel, hf, hi]

/-- In a supported format every pixel has a value (spec/30_encoding.md R81). -/
theorem imagePixel_isSome (inp : Memory) (f : Format) (w : Word) (x y bsz : Nat) (hf : f.size? = some bsz) :
    ∃ v, imagePixel inp f w x y = some v := by
  obtain ⟨i, hi, _⟩ := decode_record f (fetchBytes inp ((y / 4 * ceil4 w.toNat + x / 4) * bsz) bsz) (by simpa using hf)
  obtain ⟨texel, ht⟩ := recordTexel_of_record _ _ i hi
  exact ⟨_, (imagePixel_of_record inp f w x y bsz i hf hi).trans (ht _)⟩

/-- The image's bytes in the block at the cursor are the channels of the texels of the record there. -/
theorem imageByte_of_texelsAtCursor (s : State) (texel : Nat → RGBA) (hp : s.run.inProgress)
    (ht : TexelsAtCursor texel s) (a : Nat) (hblock : blockOfByte s.run a = s.run.blocksDone) :
    imageByte s.inMem s.run.f s.run.w a =
      some (channel (texel (4 * (a / 4 / s.run.w.toNat % 4) + a / 4 % s.run.w.toNat % 4)) (a % 4)) := by
  obtain ⟨i, hi, ht⟩ := ht
  obtain ⟨⟨hf, _, _, hnbx, _, _⟩, _, _, hcur⟩ := hp
  rw [hcur, ← hblock, blockOfByte, hnbx] at hi
  rw [imageByte, imagePixel_of_record _ _ _ _ _ _ i hf hi, ht]
  rfl

/-! ## The image grows block by block -/

/-- Of the image's bytes, those of the decoded blocks are the image's, and the others are those of `old`. -/
def DecodedUpTo (old : Memory) (s : State) : Prop :=
  ∀ a, a < imageBytes s.run.w s.run.h →
    some (Memory.read s.outMem a) =
      if blockOfByte s.run a < s.run.blocksDone then imageByte s.inMem s.run.f s.run.w a
      else some (Memory.read old a)

/-- The model's partial image is that, over `OUT` from before the run. -/
theorem partialImage_iff (s : State) (hb : s.regs.status = .busy) :
    PartialImage s ↔ DecodedUpTo s.host.outBefore s :=
  ⟨fun h => h hb, fun h _ => h⟩

/-- A block step adds the block at the cursor to the image (spec/44_image_decode.md R186, R190). -/
theorem decodedUpTo_afterBlock (old : Memory) (s : State) (texel : Nat → RGBA) (hp : s.run.inProgress)
    (hm : Memory.wf s.outMem = true) (ht : TexelsAtCursor texel s) (hd : DecodedUpTo old s) :
    DecodedUpTo old (afterBlock texel s) := by
  intro a ha
  simp only [afterBlock, advance_f, advance_w, advance_h, blockOfByte_advance, blocksDone_advance] at ha ⊢
  rw [read_storeTile _ _ _ _ _ _ _ hm ha]
  by_cases hblock : blockOfByte s.run a = s.run.blocksDone
  · rw [if_pos ((blockOfByte_eq_blocksDone s.run hp a ha).mp hblock), if_pos (by omega)]
    exact (imageByte_of_texelsAtCursor s texel hp ht a hblock).symm
  · have hlt : blockOfByte s.run a < s.run.blocksDone + 1 ↔ blockOfByte s.run a < s.run.blocksDone := by omega
    rw [if_neg (mt (blockOfByte_eq_blocksDone s.run hp a ha).mpr hblock), hd a ha]
    simp only [hlt]

/-- Once the grid is decoded, `OUT` holds the image. -/
theorem holdsImage_of_completed (old : Memory) (s : State) (hc : s.run.completed) (hd : DecodedUpTo old s) :
    holdsImage s.inMem s := by
  intro a ha
  have hlt : blockOfByte s.run a < s.run.blocksDone := by
    rw [blocksDone_completed s.run hc]
    exact blockOfByte_lt s.run hc.1 a ha
  rw [hd a ha, if_pos hlt]

/-! ## A run left to `DEC` -/

/-- A run in progress that is left to `DEC`, with its partial image over `old`. -/
structure DecRun (old : Memory) (s : State) : Prop where
  busy : s.regs.status = .busy
  err : s.regs.err = none
  agenda : s.host.agenda = []
  progress : s.run.inProgress
  wf : Memory.wf s.outMem = true
  image : DecodedUpTo old s

/-- A run that has ended with its whole image over `old`. -/
structure DecDone (old : Memory) (s : State) : Prop where
  done : s.regs.status = .done
  err : s.regs.err = none
  completed : s.run.completed
  image : DecodedUpTo old s

/-- `t` is a later state of the run of `s`: the same input, latches and grid, and `OUT` as it was outside the image. -/
structure SameRun (s t : State) : Prop where
  inMem : t.inMem = s.inMem
  f : t.run.f = s.run.f
  w : t.run.w = s.run.w
  h : t.run.h = s.run.h
  nbx : t.run.nbx = s.run.nbx
  nby : t.run.nby = s.run.nby
  outside : ∀ a, imageBytes s.run.w s.run.h ≤ a → Memory.read t.outMem a = Memory.read s.outMem a

/-- A later state of a later state is a later state. -/
theorem SameRun.trans {s t u : State} (h : SameRun s t) (k : SameRun t u) : SameRun s u where
  inMem := k.inMem.trans h.inMem
  f := k.f.trans h.f
  w := k.w.trans h.w
  h := k.h.trans h.h
  nbx := k.nbx.trans h.nbx
  nby := k.nby.trans h.nby
  outside a ha := (k.outside a (by rwa [h.w, h.h])).trans (h.outside a ha)

/-- A block step stays in its run; its stores stay in the image (spec/20_memory.md R48). -/
theorem sameRun_afterBlock (texel : Nat → RGBA) (s : State) : SameRun s (afterBlock texel s) where
  inMem := rfl
  f := advance_f _
  w := advance_w _
  h := advance_h _
  nbx := advance_nbx _
  nby := advance_nby _
  outside a ha := read_storeTile_other _ _ _ _ _ _ a fun i _ addr hx => by
    have := xlat_inside _ _ i addr _ _ hx
    omega

/-- `DEC`'s turn in a run decodes one block more, and the run goes on or is done. -/
theorem step_decRun (old : Memory) (s : State) (h : DecRun old s) :
    ∃ t, step s = .next t ∧ SameRun s t ∧ t.run.blocksDone = s.run.blocksDone + 1 ∧ (DecRun old t ∨ DecDone old t) := by
  obtain ⟨⟨hf, _⟩, _⟩ := h.progress
  obtain ⟨texel, ht, hstep⟩ := step_busy s h.busy h.agenda hf
  have himage := decodedUpTo_afterBlock old s texel h.progress h.wf ht h.image
  refine ⟨_, hstep, sameRun_afterBlock texel s, blocksDone_advance s.run, ?_⟩
  rcases advance_inProgress_or_completed s.run h.progress with hp | hc
  · exact Or.inl
      { busy := statusAfter_inProgress _ hp
        err := h.err
        agenda := h.agenda
        progress := hp
        wf := wf_storeTile _ _ _ _ _ _ h.wf
        image := himage }
  · exact Or.inr ⟨statusAfter_completed _ hc, h.err, hc, himage⟩

/-- A run of the machine takes its first step first. -/
theorem run_succ (k : Nat) (s t : State) (h : step s = .next t) :
    Host.Core.run core (k + 1) s = Host.Core.run core k t := by
  simp only [Host.Core.run, core, h]

/-- From any moment of a run left to `DEC`, as many steps as blocks are left end it with its image
(spec/44_image_decode.md R191). -/
theorem run_decRun (old : Memory) (k : Nat) (s : State) (h : DecRun old s)
    (hk : s.run.blocksDone + k = s.run.nbx * s.run.nby) :
    ∃ u, Host.Core.run core k s = .next u ∧ SameRun s u ∧ DecDone old u := by
  induction k generalizing s with
  | zero =>
    have := blocksDone_lt s.run h.progress
    omega
  | succ k ih =>
    obtain ⟨t, hstep, hsame, hblocks, hrun | hdone⟩ := step_decRun old s h
    · obtain ⟨u, hu, hsame', hdone⟩ := ih t hrun (by rw [hsame.nbx, hsame.nby]; omega)
      exact ⟨u, (run_succ k s t hstep).trans hu, hsame.trans hsame', hdone⟩
    · have hall := blocksDone_completed t.run hdone.completed
      rw [hsame.nbx, hsame.nby] at hall
      obtain rfl : k = 0 := by omega
      exact ⟨t, run_succ 0 s t hstep, hsame, hdone⟩

/-! ## START and `decode` -/

/-- `decode` fails with the error of START's checks. -/
theorem decodeImage_error (inp : Memory) (l w h : Word) (f : Format) (e : Err)
    (hd : decodeImage inp l w h f = .error e) : validate f w h l = .error e := by
  unfold decodeImage at hd
  split at hd
  · rename_i e' he
    cases hd
    exact he
  · cases hd

/-- Where START's checks pass, `decode` gives the pixels in row-major order. -/
theorem decodeImage_ok (inp : Memory) (l w h : Word) (f : Format) (px : List (Option RGBA))
    (hd : decodeImage inp l w h f = .ok px) :
    (∃ b, validate f w h l = .ok b) ∧
      px = (List.range (w.toNat * h.toNat)).map fun p => imagePixel inp f w (p % w.toNat) (p / w.toNat) := by
  unfold decodeImage at hd
  split at hd
  · cases hd
  · rename_i b hb
    cases hd
    exact ⟨⟨b, hb⟩, rfl⟩

/-- START outside BUSY with latches that fail validation takes the error. -/
theorem execStart_error (s : State) (e : Err) (hs : s.regs.status ≠ .busy)
    (hv : validate (Format.ofTag s.regs.format) s.regs.width s.regs.height s.regs.len = .error e) :
    execStart s = .next (raise e (latch s)) := by
  simp only [execStart, if_neg hs, latch_run_f, latch_run_w, latch_run_h, latch_run_l, hv]

/-- START outside BUSY with latches that pass validation, in buffers that hold the run, begins it. -/
theorem execStart_ok (s : State) (b : Nat) (hs : s.regs.status ≠ .busy)
    (hv : validate (Format.ofTag s.regs.format) s.regs.width s.regs.height s.regs.len = .ok b)
    (hfit : s.host.fitRun s.regs.width s.regs.height s.regs.len = true) :
    execStart s = .next (beginRun b (latch s)) := by
  have hfit' : (latch s).host.fitRun s.regs.width s.regs.height s.regs.len = true := hfit
  simp only [execStart, if_neg hs, latch_run_f, latch_run_w, latch_run_h, latch_run_l, hv, hfit', if_true]

/-- A dimension that is not zero has a block. -/
theorem ceil4_pos (n : Word) (h : n ≠ 0) : 0 < ceil4 n.toNat := by
  have : n.toNat ≠ 0 := fun he => h (BitVec.eq_of_toNat_eq he)
  unfold ceil4
  omega

/-- What START begins is a run whose first block is next. -/
theorem inProgress_beginRun (s : State) (b : Nat)
    (hv : validate s.run.f s.run.w s.run.h s.run.l = .ok b) : (beginRun b s).run.inProgress := by
  obtain ⟨hf, hw, hh, hreq⟩ := validate_ok _ _ _ _ _ hv
  exact ⟨⟨hf, hw, hh, rfl, rfl, hreq⟩, ceil4_pos _ hw, ceil4_pos _ hh, by simp [Run.blocksDone]⟩

/-- With nothing else to come, a run that START begins is left to `DEC`, over `OUT` as it was. -/
theorem decRun_beginRun (s : State) (b : Nat) (he : s.regs.err = none) (ha : s.host.agenda = [])
    (hm : Memory.wf s.outMem = true) (hv : validate s.run.f s.run.w s.run.h s.run.l = .ok b) :
    DecRun s.outMem (beginRun b s) where
  busy := rfl
  err := he
  agenda := ha
  progress := inProgress_beginRun s b hv
  wf := hm
  image a _ := by simp [Run.blocksDone]

/-- The four bytes of a pixel are the channels of its value. -/
theorem imageByte_pixel (inp : Memory) (f : Format) (w : Word) (p c : Nat) (v : RGBA) (hc : c < 4)
    (hv : imagePixel inp f w (p % w.toNat) (p / w.toNat) = some v) :
    imageByte inp f w (4 * p + c) = some (channel v c) := by
  have hp : (4 * p + c) / 4 = p := by omega
  have hm : (4 * p + c) % 4 = c := by omega
  rw [imageByte, hp, hm, hv]
  rfl

/-- Where `OUT` holds the image, a pixel's bytes in `OUT` are its channels (spec/20_memory.md R43). -/
theorem read_pixel_of_holdsImage (inp : Memory) (s : State) (hi : holdsImage inp s) (p c : Nat) (v : RGBA)
    (hp : p < s.run.w.toNat * s.run.h.toNat) (hc : c < 4)
    (hv : imagePixel inp s.run.f s.run.w (p % s.run.w.toNat) (p / s.run.w.toNat) = some v) :
    Memory.read s.outMem (4 * p + c) = channel v c := by
  have ha : 4 * p + c < imageBytes s.run.w s.run.h := by unfold imageBytes; omega
  exact Option.some.inj ((hi _ ha).trans (imageByte_pixel inp s.run.f s.run.w p c v hc hv))

/-- Settles O53: an error is START's own; otherwise START begins a run left to `DEC`, which ends with the image. -/
theorem startComputesDecode : Obligations.StartComputesDecode := by
  rintro s ⟨_, hm, _⟩ hs ha
  constructor
  · intro e hd
    exact ⟨_, execStart_error s e hs (decodeImage_error _ _ _ _ _ e hd), rfl, rfl, rfl⟩
  · intro hfit px hd
    obtain ⟨⟨b, hv⟩, rfl⟩ := decodeImage_ok _ _ _ _ _ px hd
    obtain ⟨hsize, _⟩ := validate_ok _ _ _ _ _ hv
    have hrun : DecRun s.outMem (beginRun b (latch s)) := decRun_beginRun (latch s) b rfl ha hm hv
    obtain ⟨u, hu, hsame, hdone⟩ := run_decRun s.outMem
      (ceil4 s.regs.width.toNat * ceil4 s.regs.height.toNat) _ hrun (by simp [Run.blocksDone])
    have hf : u.run.f = Format.ofTag s.regs.format := hsame.f
    have hw : u.run.w = s.regs.width := hsame.w
    have hh : u.run.h = s.regs.height := hsame.h
    have hin : u.inMem = s.inMem := hsame.inMem
    have himage : holdsImage s.inMem u := hin ▸ holdsImage_of_completed s.outMem u hdone.completed hdone.image
    refine ⟨by simp, _, u, execStart_ok s b hs hv hfit, hu, hdone.done, hdone.err, fun p hp => ?_⟩
    obtain ⟨v, hpx⟩ := imagePixel_isSome s.inMem (Format.ofTag s.regs.format) s.regs.width
      (p % s.regs.width.toNat) (p / s.regs.width.toNat) b hsize
    refine ⟨v, by simp [hp, hpx], fun c hc => ?_⟩
    exact read_pixel_of_holdsImage s.inMem u himage p c v (by rwa [hw, hh]) hc (by rwa [hf, hw])

/-! ## The host's accesses in the agenda -/

/-- A step with an access of the host next that is no write of `CTRL` makes it. -/
theorem step_host (s : State) (c : HostCmd) (more : List Event) (ha : s.host.agenda = .host c :: more)
    (hc : ∀ v, c ≠ .write 0 v) : step s = hostStep c (s.withAgenda more) := by
  have hissue : issue s = issueHost c (s.withAgenda more) := by simp only [issue, ha]
  rcases issueHost_eq c (s.withAgenda more) with ⟨v, rfl, _⟩ | ⟨_, haccess⟩
  · exact absurd rfl (hc v)
  · simp only [step, hissue, haccess]

/-- An access by bus address at which a register lies is the access to that register. -/
theorem step_bus_some (s : State) (b : BusCmd) (c : HostCmd) (more : List Event)
    (ha : s.host.agenda = .bus b :: more) (hb : b.byNumber s.host.regFile = some c) :
    step s = step (s.withAgenda (.host c :: more)) := by
  have hissue : issue s = issue (s.withAgenda (.host c :: more)) := by
    simp only [issue, ha, hb]
    rfl
  simp only [step, hissue]

/-- An access by bus address at which no register lies is refused. -/
theorem step_bus_none (s : State) (b : BusCmd) (more : List Event)
    (ha : s.host.agenda = .bus b :: more) (hb : b.byNumber s.host.regFile = none) :
    step s = .refused (.noRegisterAt b.addr) := by
  simp only [step, issue, ha, hb]

/-- No register lies at an address that is none of the seven, or without a stride. -/
theorem number?_none (m : RegFile) (addr : Nat)
    (h : m.stride = 0 ∨ ∀ idx, idx ≤ 6 → addr ≠ m.base + idx * m.stride) : m.number? addr = none := by
  cases hn : m.number? addr with
  | none => rfl
  | some idx =>
    obtain ⟨hi, haddr, hs⟩ := number?_some m addr idx hn
    rcases h with h0 | hne
    · exact absurd h0 hs
    · exact absurd haddr.symm (hne idx (by omega))

/-- Settles O60: by the way the access reaches its register. -/
theorem stepMakesEveryOtherHostAccess : Obligations.StepMakesEveryOtherHostAccess := by
  intro s more
  refine ⟨fun c ha hc => step_host s c more ha hc, fun idx hs hi => ?_, fun addr hno => ?_⟩
  · have hn := number?_addr s.host.regFile idx hs (by omega)
    unfold RegFile.addr at hn
    exact ⟨fun v ha => step_bus_some s _ _ more ha (by simp [BusCmd.byNumber, hn]),
      fun ha => step_bus_some s _ _ more ha (by simp [BusCmd.byNumber, hn])⟩
  · have hn := number?_none s.host.regFile addr hno
    exact ⟨fun v ha => step_bus_none s _ more ha (by simp [BusCmd.byNumber, hn]),
      fun ha => step_bus_none s _ more ha (by simp [BusCmd.byNumber, hn])⟩

end Sys2Proof.Proofs
end

section
/-! PROOFS. The registers and the run over a step (spec/10_state.md): what a step can do, how `STATUS`, `ERR` and the
latches change (O44, O45, O47), where the cursor stands (O51), and the host's registers (O40, O54, O55, O59). -/

namespace Sys2Proof.Proofs

open Sys2Proof.Machine Sys2Proof.Laws

/-! ## What a step can do -/

/-- `DEC` has the turn: the agenda says so, or is empty. -/
def DecsTurn (s : State) : Prop := s.host.agenda = [] ∨ ∃ more, s.host.agenda = .dec :: more

/-- The host's next access writes `CTRL` with bit 0 = 1, by number or by bus address. -/
def StartIsNext (s : State) : Prop := ∃ v, nextAccess s = some (.write 0 v) ∧ v.getLsbD 0 = true

/-- What a step from `s` to `t` did, by the agent whose turn it was; the event taken is gone from the agenda. -/
inductive StepCase (s t : State) : Prop where
  /-- `DEC`, in BUSY, ran a record: the one at the cursor, where the latched block size is the latched format's -/
  | block (texel : Nat → RGBA) (a : List Event) (hb : s.regs.status = .busy) (hturn : DecsTurn s)
      (htexel : s.run.f.size? = some s.run.bsz → TexelsAtCursor texel s)
      (ht : t = afterBlock texel (s.withAgenda a))
  /-- the host wrote a START -/
  | start (hstart : StartIsNext s) (ht : execStart (s.withAgenda s.host.agenda.tail) = .next t)
  /-- a lane executed a selector code -/
  | lane (l : Lane) (a : List Event) (ht : t = { s.withAgenda a with lane := l })
  /-- the host made another access, or the reset event came -/
  | access (c : HostCmd) (hc : nextAccess s = some c) (hctrl : ∀ v, c ≠ .write 0 v)
      (ht : hostStep c (s.withAgenda s.host.agenda.tail) = .next t)
  /-- the agent had no enabled step -/
  | nothing (a : List Event) (ht : t = s.withAgenda a)

/-- What bytes decode to under a latched format is the operation of their value as a record. -/
theorem decodeRecord_of_decode (f : Format) (bs rest : List Byte) (i : Instr)
    (h : decode (.record f) bs = .ok (i, rest)) : decodeRecord f (leNat (bs.take (Ctx.record f).size)) = .ok i := by
  unfold decode at h
  split at h
  · cases h
  · split at h
    · rename_i j hj
      cases h
      exact hj
    · cases h

/-- What `DEC` decodes has texels, and they are those of the record at the cursor where the latched block size is the
latched format's. -/
theorem texelsAtCursor_of_decode (s : State) (i : Instr) (rest : List Byte)
    (h : decode (.record s.run.f) (fetchBytes s.inMem s.run.cur s.run.bsz) = .ok (i, rest)) :
    ∃ texel : Nat → RGBA, (∀ n, recordTexel i n = some (texel n)) ∧
      (s.run.f.size? = some s.run.bsz → TexelsAtCursor texel s) := by
  have hrec := decodeRecord_of_decode _ _ _ _ h
  obtain ⟨texel, ht⟩ := recordTexel_of_record _ _ i hrec
  refine ⟨texel, ht, fun hf => ⟨i, ?_, ht⟩⟩
  rwa [List.take_of_length_le (by simp [Ctx.size, hf])] at hrec

/-- A selector code that a lane decodes changes the lane only. -/
theorem exec_code (k : CodeKind) (s u t : State) (bs rest : List Byte) (i : Instr)
    (hd : decode (codeCtx k s) bs = .ok (i, rest)) (h : exec i u = .next t) : ∃ l, t = { u with lane := l } := by
  obtain ⟨hstart, hrecord⟩ := decode_code k s bs rest i hd
  rcases exec_next i u t h with ⟨hi, _⟩ | ⟨_, ht, _⟩ | ⟨c, rfl⟩ | ⟨a, rfl⟩
  · exact absurd hi hstart
  · cases (hrecord 0).symm.trans (ht 0)
  · exact ⟨_, rfl⟩
  · exact ⟨_, rfl⟩

/-- Every step that answers a next state is one of these. -/
theorem step_case (s t : State) (h : step s = .next t) : StepCase s t := by
  rcases step_next s t h with ⟨i, u, hi, hx⟩ | ⟨c, u, hi, hx⟩ | hi
  · rcases issue_instruction s u i hi with
      ⟨hb, ⟨a, rfl⟩, hturn, rest, hd⟩ | ⟨rfl, v, hv, hbit, rfl⟩ | ⟨k, b, a, rest, _, hd, rfl⟩
    · obtain ⟨texel, ht, htexel⟩ := texelsAtCursor_of_decode s i rest hd
      cases (blockStep_busy texel (s.withAgenda a) hb).symm.trans ((exec_eq_blockStep i texel _ ht).symm.trans hx)
      exact .block texel a hb hturn htexel rfl
    · exact .start ⟨v, hv, hbit⟩ hx
    · obtain ⟨l, rfl⟩ := exec_code k s _ t [b] rest i hd hx
      exact .lane l a rfl
  · obtain ⟨hc, rfl, hctrl⟩ := issue_access s u c hi
    exact .access c hc hctrl hx
  · obtain ⟨a, rfl⟩ := issue_nothing s t hi
    exact .nothing a rfl

/-- In BUSY a START is ignored (spec/44_image_decode.md R184). -/
theorem eq_of_execStart_busy (s t : State) (h : execStart s = .next t) (hb : s.regs.status = .busy) : t = s := by
  rcases execStart_next s t h with ⟨_, ht⟩ | ⟨hn, _⟩ | ⟨hn, _⟩
  · exact ht
  · exact absurd hb hn
  · exact absurd hb hn

/-- What START leaves in `STATUS` outside BUSY. -/
theorem execStart_status (s t : State) (h : execStart s = .next t) (hb : s.regs.status ≠ .busy) :
    t.regs.status = .busy ∨ t.regs.status = .error := by
  rcases execStart_next s t h with ⟨hbusy, _⟩ | ⟨_, e, _, rfl⟩ | ⟨_, b, _, _, rfl⟩
  · exact absurd hbusy hb
  · exact Or.inr rfl
  · exact Or.inl rfl

/-- No access of the host but the reset event changes `STATUS`, `ERR` or the run (spec/10_state.md R12). -/
theorem hostStep_keeps (c : HostCmd) (s t : State) (hc : c ≠ .reset) (h : hostStep c s = .next t) :
    t.regs.status = s.regs.status ∧ t.regs.err = s.regs.err ∧ t.run = s.run := by
  rcases hostStep_next c s t h with ⟨r, rfl, hs, he⟩ | ⟨_, _, rfl, _⟩ | ⟨_, _, rfl, _⟩ | ⟨_, rfl, _⟩ | ⟨hr, _⟩
  · exact ⟨hs, he, rfl⟩
  · exact ⟨rfl, rfl, rfl⟩
  · exact ⟨rfl, rfl, rfl⟩
  · exact ⟨rfl, rfl, rfl⟩
  · exact absurd hr hc

/-- The reset event is never made by bus address. -/
theorem agenda_of_reset_next (s : State) (h : nextAccess s = some .reset) :
    ∃ more, s.host.agenda = .host .reset :: more :=
  nextAccess_event s .reset h (fun _ _ => HostCmd.noConfusion) (fun _ => HostCmd.noConfusion)

/-! ## `STATUS`, `ERR` and the latches over a step -/

/-- Settles O44: by what the step did. -/
theorem statusTransitions : Obligations.StatusTransitions := by
  intro s t h
  cases step_case s t h with
  | block texel a hb hturn _ ht =>
    subst ht
    by_cases hlast : s.run.advance.blkY = s.run.advance.nby
    · exact Or.inr (Or.inr (Or.inr ⟨hb, if_pos hlast, hlast, hturn⟩))
    · exact Or.inl ((if_neg hlast).trans hb.symm)
  | start hstart ht =>
    by_cases hb : s.regs.status = .busy
    · exact Or.inl (by rw [eq_of_execStart_busy _ t ht hb]; rfl)
    · exact Or.inr (Or.inr (Or.inl ⟨hb, execStart_status _ t ht hb, hstart⟩))
  | lane l a ht => exact Or.inl (by rw [ht]; rfl)
  | access c hc _ ht =>
    by_cases hr : c = .reset
    · subst hr
      cases ht
      exact Or.inr (Or.inl ⟨rfl, agenda_of_reset_next s hc⟩)
    · exact Or.inl (hostStep_keeps c _ t hr ht).1
  | nothing a ht => exact Or.inl (by rw [ht]; rfl)

/-- Settles O45: of what a step can do, only START outside BUSY and the reset event write `ERR`. -/
theorem errIsWrittenOnlyAtStartOrReset : Obligations.ErrIsWrittenOnlyAtStartOrReset := by
  intro s t h hne
  cases step_case s t h with
  | block texel a _ _ _ ht => exact absurd (by rw [ht]; rfl) hne
  | start hstart ht =>
    exact Or.inr ⟨fun hb => hne (by rw [eq_of_execStart_busy _ t ht hb]; rfl), hstart⟩
  | lane l a ht => exact absurd (by rw [ht]; rfl) hne
  | access c hc _ ht =>
    by_cases hr : c = .reset
    · exact Or.inl (agenda_of_reset_next s (hr ▸ hc))
    · exact absurd (hostStep_keeps c _ t hr ht).2.1 hne
  | nothing a ht => exact absurd (by rw [ht]; rfl) hne

/-- In BUSY, a step that is not the reset event leaves the run as it is, or advances it by one block. -/
theorem run_of_step_busy (s t : State) (hb : s.regs.status = .busy) (h : step s = .next t)
    (hreset : ∀ more, s.host.agenda ≠ .host .reset :: more) : t.run = s.run ∨ t.run = s.run.advance := by
  cases step_case s t h with
  | block texel a _ _ _ ht => exact Or.inr (by rw [ht]; rfl)
  | start _ ht => exact Or.inl (by rw [eq_of_execStart_busy _ t ht hb]; rfl)
  | lane l a ht => exact Or.inl (by rw [ht]; rfl)
  | access c hc _ ht =>
    by_cases hr : c = .reset
    · obtain ⟨more, ha⟩ := agenda_of_reset_next s (hr ▸ hc)
      exact absurd ha (hreset more)
    · exact Or.inl (hostStep_keeps c _ t hr ht).2.2
  | nothing a ht => exact Or.inl (by rw [ht]; rfl)

/-- Settles O47: the advance keeps the latches and the derived constants. -/
theorem latchesHoldDuringARun : Obligations.LatchesHoldDuringARun := by
  intro s t hb h hreset
  rcases run_of_step_busy s t hb h hreset with hr | hr <;> simp [hr]

/-! ## The cursor -/

/-- The record at the cursor of a run in progress is whole: it ends at or before `REQ` (spec/20_memory.md R47). -/
theorem cur_add_bsz_le_req (r : Run) (h : r.inProgress) : r.cur + r.bsz ≤ r.req := by
  have hblock := blocksDone_lt r h
  obtain ⟨_, _, _, hcur⟩ := h
  calc r.cur + r.bsz = (r.blocksDone + 1) * r.bsz := by rw [hcur, Nat.add_mul, Nat.one_mul]
    _ ≤ r.nbx * r.nby * r.bsz := Nat.mul_le_mul_right _ hblock

/-- What the invariant says in BUSY. -/
theorem inProgress_of_inv (s : State) (hi : s.Inv) (hb : s.regs.status = .busy) : s.run.inProgress := by
  obtain ⟨_, hs⟩ := hi
  simp only [statusSound, hb] at hs
  obtain ⟨_, hp, _⟩ := hs
  exact hp

/-- Settles O51: a run in progress has a block left, and its record is the one at the cursor. -/
theorem cursorStaysInTheInput : Obligations.CursorStaysInTheInput := by
  intro s hi hb
  have hp := inProgress_of_inv s hi hb
  have hwhole := cur_add_bsz_le_req s.run hp
  obtain ⟨⟨_, _, _, _, _, hreq⟩, _, _, hcur⟩ := hp
  exact ⟨Dvd.intro_left _ hcur.symm, hwhole, hreq, hcur⟩

/-! ## The host's registers -/

/-- Settles O40: `CTRL`'s decoder sees bit 0 only. -/
theorem stepRunsStartOnAWriteOfCtrl : Obligations.StepRunsStartOnAWriteOfCtrl := by
  intro s v more ha
  have hissue : issue s = issueHost (.write 0 v) (s.withAgenda more) := by simp only [issue, ha]
  rcases issueHost_eq (.write 0 v) (s.withAgenda more) with ⟨w, hw, hctrl⟩ | ⟨hn, _⟩
  · cases hw
    exact ⟨fun hbit => by simp only [step, hissue, hctrl, hbit, if_true],
      fun hbit => by simp only [step, hissue, hctrl, hbit, Bool.false_eq_true, if_false]⟩
  · exact absurd rfl (hn v)

/-- A read of a register returns what stands in it. -/
theorem hostStep_read (s : State) (idx : Nat) (v : Word) (hr : regRead s.regs idx = some v) :
    ∃ u, hostStep (.read idx) s = .next u ∧ u.host.rdata = v := by
  simp only [hostStep, hostRead, hr]
  exact ⟨_, rfl, rfl⟩

/-- A write of a register changes the register file only. -/
theorem hostStep_write (s : State) (idx : Nat) (v : Word) (r : HostRegs) (hw : regWrite s.regs idx v = some r) :
    hostStep (.write idx v) s = .next { s with regs := r } := by
  simp only [hostStep, hostWrite, hw]

/-- A configuration register holds the last value written, and a write of it changes no other register. -/
theorem regWrite_config (r : HostRegs) (idx : Nat) (v : Word) (hlo : 3 ≤ idx) (hhi : idx ≤ 6) :
    ∃ r', regWrite r idx v = some r' ∧ regRead r' idx = some v ∧ r'.status = r.status ∧ r'.err = r.err ∧
      ∀ j, j ≤ 6 → j ≠ idx → regRead r' j = regRead r j := by
  obtain rfl | rfl | rfl | rfl : idx = 3 ∨ idx = 4 ∨ idx = 5 ∨ idx = 6 := by omega
  · exact ⟨{ r with format := v }, rfl, rfl, rfl, rfl, fun j _ hj => by
      simp [regRead, Config.regFormat, hj]⟩
  · exact ⟨{ r with width := v }, rfl, rfl, rfl, rfl, fun j _ hj => by
      simp [regRead, Config.regWidth, hj]⟩
  · exact ⟨{ r with height := v }, rfl, rfl, rfl, rfl, fun j _ hj => by
      simp [regRead, Config.regHeight, hj]⟩
  · exact ⟨{ r with len := v }, rfl, rfl, rfl, rfl, fun j _ hj => by
      simp [regRead, Config.regLen, hj]⟩

/-- A write of `STATUS` or `ERR` is ignored. -/
theorem regWrite_readOnly (r : HostRegs) (idx : Nat) (v : Word) (h : idx = 1 ∨ idx = 2) :
    regWrite r idx v = some r :=
  if_pos (Or.inr h)

/-- A number above 6 names no register to read. -/
theorem regRead_outside (r : HostRegs) (idx : Nat) (h : 7 ≤ idx) : regRead r idx = none := by
  have hne (n : Nat) (hn : n < 7) : idx ≠ n := by omega
  simp [regRead, Config.regCtrl, Config.regStatus, Config.regErr, Config.regFormat, Config.regWidth, Config.regHeight,
    Config.regLen, hne]

/-- A number above 6 names no register to write. -/
theorem regWrite_outside (r : HostRegs) (idx : Nat) (v : Word) (h : 7 ≤ idx) : regWrite r idx v = none := by
  have hne (n : Nat) (hn : n < 7) : idx ≠ n := by omega
  simp [regWrite, Config.regCtrl, Config.regStatus, Config.regErr, Config.regFormat, Config.regWidth, Config.regHeight,
    Config.regLen, hne]

/-- Settles O54: register by register, by the range its number is in. -/
theorem hostRegisterAccess : Obligations.HostRegisterAccess := by
  intro s v
  refine ⟨fun idx hlo hhi => ?_, hostStep_read s 0 0 rfl, fun idx hidx => ?_, fun idx hidx => ⟨?_, ?_⟩⟩
  · obtain ⟨r, hw, hr, hstatus, herr, hother⟩ := regWrite_config s.regs idx v hlo hhi
    obtain ⟨u, hu, hv⟩ := hostStep_read { s with regs := r } idx v hr
    exact ⟨_, u, hostStep_write s idx v r hw, hu, hv, rfl, rfl, rfl, rfl, rfl, hstatus, herr, hother⟩
  · exact hostStep_write s idx v s.regs (regWrite_readOnly s.regs idx v hidx)
  · simp only [hostStep, hostRead, regRead_outside s.regs idx hidx]
  · simp only [hostStep, hostWrite, regWrite_outside s.regs idx v hidx]

/-- Settles O55: a read of `STATUS` or `ERR` returns its code. -/
theorem statusAndErrReadTheirCodes : Obligations.StatusAndErrReadTheirCodes := by
  intro s
  obtain ⟨t, ht, hstatus⟩ := hostStep_read s 1 s.regs.status.code rfl
  obtain ⟨u, hu, herr⟩ := hostStep_read s 2 (errCode s.regs.err) rfl
  refine ⟨t, u, ht, hu, ?_⟩
  rw [hstatus, herr]
  exact ⟨congrArg Status.code, congrArg Status.code, congrArg Status.code, congrArg Status.code,
    congrArg errCode, congrArg errCode, congrArg errCode, congrArg errCode⟩

/-- Settles O59: the format after reset is no format, and that check comes first. -/
theorem resetStateCannotStart : Obligations.ResetStateCannotStart :=
  ⟨rfl, _, execStart_error State.reset .unsupportedFormat (by decide) rfl, rfl, rfl, rfl⟩

end Sys2Proof.Proofs
end

section
/-! PROOFS. The memories (spec/20_memory.md): what an instruction stores (O46), what the host sees of `OUT` (O57), which
of its accesses are made and which are not (O56), and the launch that is not admitted (O37). -/

namespace Sys2Proof.Proofs

open Sys2Proof.Machine Sys2Proof.Laws

/-! ## What an instruction stores -/

/-- What no instruction may change from `s` to `t`: `IN`, `OUT` at or beyond `4*W*H` of the latches in `s`, and the
configuration registers. -/
structure StoresInImageOnly (s t : State) : Prop where
  inMem : t.inMem = s.inMem
  outside : ∀ a, imageBytes s.run.w s.run.h ≤ a → Memory.read t.outMem a = Memory.read s.outMem a
  format : t.regs.format = s.regs.format
  width : t.regs.width = s.regs.width
  height : t.regs.height = s.regs.height
  len : t.regs.len = s.regs.len

/-- A block step stores its tile and changes `STATUS` (spec/20_memory.md R48). -/
theorem storesInImageOnly_afterBlock (texel : Nat → RGBA) (s : State) : StoresInImageOnly s (afterBlock texel s) where
  inMem := rfl
  outside := (sameRun_afterBlock texel s).outside
  format := rfl
  width := rfl
  height := rfl
  len := rfl

/-- A change of the lane, of the run's registers, of `STATUS` and `ERR` and of the environment's side stores nothing. -/
theorem storesInImageOnly_of_eq (s t : State) (hin : t.inMem = s.inMem) (hout : t.outMem = s.outMem)
    (hregs : t.regs = { s.regs with status := t.regs.status, err := t.regs.err }) : StoresInImageOnly s t where
  inMem := hin
  outside a _ := by rw [hout]
  format := by rw [hregs]
  width := by rw [hregs]
  height := by rw [hregs]
  len := by rw [hregs]

/-- START stores nothing: it takes an error, or begins a run whose blocks are still to come. -/
theorem storesInImageOnly_execStart (s t : State) (h : execStart s = .next t) : StoresInImageOnly s t := by
  rcases execStart_next s t h with ⟨_, rfl⟩ | ⟨_, e, _, rfl⟩ | ⟨_, b, _, _, rfl⟩
  · exact storesInImageOnly_of_eq _ _ rfl rfl rfl
  · exact storesInImageOnly_of_eq _ _ rfl rfl rfl
  · exact storesInImageOnly_of_eq _ _ rfl rfl rfl

/-- Settles O46: only a block step stores, and its enabled stores are inside the image. -/
theorem instructionsWriteOnlyTheImage : Obligations.InstructionsWriteOnlyTheImage := by
  intro i s t h
  have hkeeps : StoresInImageOnly s t := by
    rcases exec_next i s t h with ⟨_, hs⟩ | ⟨texel, _, hb⟩ | ⟨c, rfl⟩ | ⟨a, rfl⟩
    · exact storesInImageOnly_execStart s t hs
    · rcases blockStep_next texel s t hb with ⟨_, rfl⟩ | ⟨_, rfl⟩
      · exact storesInImageOnly_afterBlock texel s
      · exact storesInImageOnly_of_eq _ _ rfl rfl rfl
    · exact storesInImageOnly_of_eq _ _ rfl rfl rfl
    · exact storesInImageOnly_of_eq _ _ rfl rfl rfl
  exact ⟨hkeeps.inMem, hkeeps.outside, hkeeps.format, hkeeps.width, hkeeps.height, hkeeps.len⟩

/-! ## The host's accesses to bytes and buffers

One equation per outcome of each access: outside the buffer, refused or owned, made. -/

section HostAccess

variable (s : State) (a : Nat) (b : Byte)

/-- Which bytes of `OUT` a run owns (spec/20_memory.md R51, R56). -/
theorem outOwned_iff : outOwned s a = true ↔
    (s.regs.status = .busy ∨ (s.regs.status = .done ∧ s.host.seen = false)) ∧ a < imageBytes s.run.w s.run.h := by
  simp [outOwned, runUnseen]

theorem hostStep_writeIn_outside (h : s.host.bufs.inSize ≤ a) :
    hostStep (.writeIn a b) s = .fault (.outsideBuffer a) := if_pos h

theorem hostStep_writeIn_raced (h : a < s.host.bufs.inSize) (hr : s.regs.status = .busy ∧ a < s.run.req) :
    hostStep (.writeIn a b) s = .refused .hostRace := (if_neg (Nat.not_le.mpr h)).trans (if_pos hr)

theorem hostStep_writeIn_made (h : a < s.host.bufs.inSize) (hr : ¬(s.regs.status = .busy ∧ a < s.run.req)) :
    hostStep (.writeIn a b) s = .next { s with inMem := Memory.write s.inMem a b } :=
  (if_neg (Nat.not_le.mpr h)).trans (if_neg hr)

theorem hostStep_readIn_outside (h : s.host.bufs.inSize ≤ a) :
    hostStep (.readIn a) s = .fault (.outsideBuffer a) := if_pos h

theorem hostStep_readIn_made (h : a < s.host.bufs.inSize) :
    hostStep (.readIn a) s = .next (s.withRdata ((Memory.read s.inMem a).setWidth 32)) := if_neg (Nat.not_le.mpr h)

theorem hostStep_writeOut_outside (h : s.host.bufs.outSize ≤ a) :
    hostStep (.writeOut a b) s = .fault (.outsideBuffer a) := if_pos h

theorem hostStep_writeOut_owned (h : a < s.host.bufs.outSize) (ho : outOwned s a = true) :
    hostStep (.writeOut a b) s = .refused .hostRace := (if_neg (Nat.not_le.mpr h)).trans (if_pos ho)

theorem hostStep_writeOut_made (h : a < s.host.bufs.outSize) (ho : ¬outOwned s a = true) :
    hostStep (.writeOut a b) s = .next { s with outMem := Memory.write s.outMem a b } :=
  (if_neg (Nat.not_le.mpr h)).trans (if_neg ho)

theorem hostStep_readOut_outside (h : s.host.bufs.outSize ≤ a) :
    hostStep (.readOut a) s = .fault (.outsideBuffer a) := if_pos h

/-- A read of a byte that a run owns answers one of the byte's two values (spec/20_memory.md R56). -/
theorem hostStep_readOut_owned (h : a < s.host.bufs.outSize) (ho : outOwned s a = true) :
    ∃ u old, hostStep (.readOut a) s = .next u ∧ u.host.rdata = (eitherByte s old a).setWidth 32 :=
  ⟨_, _, (if_neg (Nat.not_le.mpr h)).trans (if_pos ho), rfl⟩

theorem hostStep_readOut_made (h : a < s.host.bufs.outSize) (ho : ¬outOwned s a = true) :
    hostStep (.readOut a) s = .next (s.withRdata ((Memory.read s.outMem a).setWidth 32)) :=
  (if_neg (Nat.not_le.mpr h)).trans (if_neg ho)

end HostAccess

/-- Settles O56: access by access, by where the byte is and whether a run owns it. -/
theorem hostWritesToARunsBytesAreRefused : Obligations.HostWritesToARunsBytesAreRefused := by
  intro s a b
  refine ⟨fun hout => ⟨hostStep_writeIn_outside s a b hout, hostStep_readIn_outside s a hout⟩,
    fun hin => ⟨hostStep_writeIn_raced s a b hin, fun hfree => ?_, hostStep_readIn_made s a hin⟩,
    fun hout => ⟨hostStep_writeOut_outside s a b hout, hostStep_readOut_outside s a hout⟩,
    fun hin => ⟨fun ho => hostStep_writeOut_owned s a b hin ((outOwned_iff s a).mpr ho), fun hfree => ?_⟩,
    fun hb p => if_pos hb, fun hb p => if_neg hb⟩
  · refine hostStep_writeIn_made s a b hin fun ⟨hb, ha⟩ => ?_
    rcases hfree with hn | hn
    · exact hn hb
    · omega
  · have hno : ¬outOwned s a = true := by
      rw [outOwned_iff]
      rintro ⟨hrun, ha⟩
      rcases hfree with ⟨hnb, hseen⟩ | hn
      · rcases hrun with hb | ⟨hd, hunseen⟩
        · exact hnb hb
        · simp [hseen hd] at hunseen
      · exact absurd ha (Nat.not_lt.mpr hn)
    exact ⟨hostStep_writeOut_made s a b hin hno, hostStep_readOut_made s a hin hno⟩

/-! ## What the host sees of `OUT` -/

/-- A host that has read `STATUS` as DONE has seen the run's end; nothing else but the value read changes. -/
theorem hostStep_readStatus_done (s : State) (hd : s.regs.status = .done) :
    hostStep (.read 1) s =
      .next { s with host := { s.host with rdata := Status.code .done, seen := true } } := by
  simp [hostStep, hostRead, regRead, Config.regCtrl, Config.regStatus, hd]

/-- In a supported format every byte of the image has a value (spec/30_encoding.md R81). -/
theorem imageByte_isSome (inp : Memory) (f : Format) (w : Word) (a bsz : Nat) (hf : f.size? = some bsz) :
    ∃ v, imageByte inp f w a = some v := by
  obtain ⟨px, hpx⟩ := imagePixel_isSome inp f w (a / 4 % w.toNat) (a / 4 / w.toNat) bsz hf
  exact ⟨channel px (a % 4), by rw [imageByte, hpx]; rfl⟩

/-- In BUSY a byte of the image has the value from before the run, or the run's own. -/
theorem eitherByte_busy (s : State) (old : Bool) (a : Nat) (v : Byte) (hb : s.regs.status = .busy)
    (hv : imageByte s.inMem s.run.f s.run.w a = some v) :
    eitherByte s old a = Memory.read s.host.outBefore a ∨ eitherByte s old a = v := by
  cases old with
  | true => exact Or.inl rfl
  | false => exact Or.inr (by simp [eitherByte, hb, hv])

/-- Settles O57: after the read of DONE no run owns the byte; in BUSY the run owns it. -/
theorem hostViewOfTheOutput : Obligations.HostViewOfTheOutput := by
  intro s a ha
  constructor
  · intro hd
    refine ⟨_, _, hostStep_readStatus_done s hd, hostStep_readOut_made _ a ha ?_, rfl⟩
    simp [outOwned_iff, hd]
  · intro hi hb himage
    obtain ⟨u, old, hu, hrdata⟩ := hostStep_readOut_owned s a ha ((outOwned_iff s a).mpr ⟨Or.inl hb, himage⟩)
    obtain ⟨⟨hf, _⟩, _⟩ := inProgress_of_inv s hi hb
    obtain ⟨v, hv⟩ := imageByte_isSome s.inMem s.run.f s.run.w a s.run.bsz hf
    refine ⟨u, hu, ?_⟩
    rw [hrdata, hv]
    rcases eitherByte_busy s old a v hb hv with he | he
    · exact Or.inl (by rw [he])
    · exact Or.inr (by rw [he]; rfl)

/-! ## A launch that is not admitted -/

/-- START outside BUSY with latches that pass validation, in buffers that do not hold the run, is refused. -/
theorem execStart_refused (s : State) (b : Nat) (hs : s.regs.status ≠ .busy)
    (hv : validate (Format.ofTag s.regs.format) s.regs.width s.regs.height s.regs.len = .ok b)
    (hfit : ¬s.host.fitRun s.regs.width s.regs.height s.regs.len = true) :
    execStart s = .refused .launchNotAdmitted := by
  simp only [execStart, if_neg hs, latch_run_f, latch_run_w, latch_run_h, latch_run_l, hv]
  exact if_neg hfit

/-- A range that no register lies in ends before each register's first byte, or begins after its last one. -/
theorem register_outside (m : RegFile) (start size idx : Nat) (hclear : m.clearOf start size = true) (hi : idx ≤ 6) :
    ¬(start < m.base + idx * m.stride + 4 ∧ m.base + idx * m.stride < start + size) := by
  have haddr := (clearOf_iff m start size).mp hclear idx (by omega)
  simp only [RegFile.addr, Config.regBytes] at haddr
  omega

/-- Settles O37: a run that the platform admits has none of the four defects. -/
theorem launchWithoutBuffersIsRefused : Obligations.LaunchWithoutBuffersIsRefused := by
  intro s b hs hv hdefect
  refine execStart_refused s b hs hv fun hfit => ?_
  obtain ⟨hin, hout, hapart, hclearIn, hclearOut⟩ := (fitRun_iff _ _ _ _).mp hfit
  unfold imageBytes at hout hapart hclearOut
  rcases hdefect with hsmall | hsmall | ⟨hover, hover'⟩ | ⟨idx, hi, hreg | hreg⟩
  · omega
  · omega
  · omega
  · exact register_outside _ _ _ idx hclearIn hi hreg
  · exact register_outside _ _ _ idx hclearOut hi hreg

end Sys2Proof.Proofs
end

section
/-! PROOFS. The records (spec/30_encoding.md): every record decodes and has its texels (O4), and the fields and codes of
the BC1 and BC2 records are slices of the record's bytes (O5, O6). -/

namespace Sys2Proof.Proofs

open Sys2Proof.Machine Sys2Proof.Laws

/-! ## Every record decodes -/

/-- A row of the format table gives the format's record length (spec/30_encoding.md R82). -/
theorem size?_of_mem_formatRows (tag : Word) (f : Format) (n : Nat) (h : (tag, f, n) ∈ formatRows) :
    f.size? = some n := by
  simp only [formatRows, List.mem_cons, Prod.mk.injEq, List.not_mem_nil, or_false] at h
  rcases h with ⟨_, rfl, rfl⟩ | ⟨_, rfl, rfl⟩ | ⟨_, rfl, rfl⟩ <;> rfl

/-- Bytes behind those that decode are left over. -/
theorem decode_append (c : Ctx) (bs left rest : List Byte) (i : Instr) (h : decode c bs = .ok (i, left)) :
    decode c (bs ++ rest) = .ok (i, left ++ rest) := by
  unfold decode at h ⊢
  split at h
  · cases h
  · have hlen : c.size ≤ bs.length := by omega
    rw [if_neg (by rw [List.length_append]; omega), List.take_append_of_le_length hlen,
      List.drop_append_of_le_length hlen]
    split at h
    · cases h
      rfl
    · cases h

/-- A whole record decodes to its format's operation of its value (spec/30_encoding.md R79). -/
theorem decode_record_of_decodeRecord (f : Format) (bs : List Byte) (i : Instr) (hsize : f.size? = some bs.length)
    (hi : decodeRecord f (leNat bs) = .ok i) : decode (.record f) bs = .ok (i, []) := by
  obtain ⟨j, hj, hd⟩ := decode_record f bs hsize
  rw [hi] at hj
  cases hj
  exact hd

/-- Settles O4: a record of its format's length decodes alone, and so with any bytes behind it. -/
theorem everyRecordIsLegal : Obligations.EveryRecordIsLegal := by
  intro tag f n hrow bs rest hlen
  have hsize : f.size? = some bs.length := hlen ▸ size?_of_mem_formatRows tag f n hrow
  obtain ⟨i, hi, hd⟩ := decode_record f bs hsize
  obtain ⟨texel, htexel⟩ := recordTexel_of_record f _ i hi
  exact ⟨i, texel, decode_append _ bs [] rest i hd, htexel⟩

/-! ## The bits of a record -/

/-- A record's first eight bits are its first byte's. -/
theorem recordBit_cons_low (b : Byte) (bs : List Byte) (n : Nat) (h : n < 8) :
    recordBit (b :: bs) n = b.getLsbD n := by
  simp [recordBit, Nat.div_eq_of_lt h, Nat.mod_eq_of_lt h]

/-- A record's bits after the first eight are those of the bytes after the first. -/
theorem recordBit_cons_high (b : Byte) (bs : List Byte) (n : Nat) (h : 8 ≤ n) :
    recordBit (b :: bs) n = recordBit bs (n - 8) := by
  obtain ⟨m, rfl⟩ := Nat.exists_eq_add_of_le' h
  simp [recordBit]

/-- The bits of a record's little-endian value are the bits of its bytes (spec/30_encoding.md R70). -/
theorem testBit_leNat (bs : List Byte) (n : Nat) : (leNat bs).testBit n = recordBit bs n := by
  induction bs generalizing n with
  | nil => simp [leNat, recordBit]
  | cons b bs ih =>
    have hbits : (leNat (b :: bs)).testBit n =
        if n < 8 then b.toNat.testBit n else (leNat bs).testBit (n - 8) := by
      rw [leNat, Nat.add_comm]
      exact Nat.testBit_two_pow_mul_add (leNat bs) b.isLt n
    rw [hbits]
    split
    · next hlow => exact (recordBit_cons_low b bs n hlow).symm
    · next hhigh => rw [ih, recordBit_cons_high b bs n (by omega)]

/-- Bit `k` of a field is bit `lo + k` of the value it is taken from. -/
theorem getLsbD_bitField (v lo n k : Nat) (h : k < n) : (bitField v lo n).getLsbD k = v.testBit (lo + k) := by
  simp [bitField, BitVec.getLsbD_ofNat, h, -BitVec.getLsbD_eq_getElem]

/-! ## Fields and codes -/

/-- A field of a record's value is a slice of the record. -/
theorem isSlice_bitField (bs : List Byte) (lo n : Nat) : isSlice bs lo n (bitField (leNat bs) lo n) := by
  intro k hk
  rw [getLsbD_bitField _ _ _ _ hk, testBit_leNat]

/-- A field of a slice is a slice. -/
theorem isSlice_bitField_of_isSlice {bs : List Byte} {lo width : Nat} {v : BitVec width} (h : isSlice bs lo width v)
    (off n : Nat) (hin : off + n ≤ width) : isSlice bs (lo + off) n (bitField v.toNat off n) := by
  intro k hk
  rw [getLsbD_bitField _ _ _ _ hk, Nat.add_assoc]
  exact h (off + k) (by omega)

/-- A texel's colour code is two bits of the slice that holds the codes (spec/30_encoding.md R76). -/
theorem isSlice_colourCode {bs : List Byte} {lo : Nat} {idx : BitVec 32} (h : isSlice bs lo 32 idx) (i : Nat)
    (hi : i < 16) : isSlice bs (lo + 2 * i) 2 (colourCode idx i) :=
  isSlice_bitField_of_isSlice h (2 * i) 2 (by omega)

/-- A texel's alpha nibble is four bits of the slice that holds the nibbles (spec/30_encoding.md R77). -/
theorem isSlice_alphaNibble {bs : List Byte} {lo : Nat} {aexp : BitVec 64} (h : isSlice bs lo 64 aexp) (i : Nat)
    (hi : i < 16) : isSlice bs (lo + 4 * i) 4 (alphaNibble aexp i) :=
  isSlice_bitField_of_isSlice h (4 * i) 4 (by omega)

/-- Settles O5: each field is a slice of the record, and each code a slice of `IDX`. -/
theorem bc1RecordFields : Obligations.BC1RecordFields := by
  intro bs hlen
  have hdecode := decode_record_of_decodeRecord .bc1 bs (decodeBC1 (leNat bs)) (congrArg some hlen.symm) rfl
  have hidx := isSlice_bitField bs 32 32
  exact ⟨_, _, _, hdecode, isSlice_bitField bs 0 16, isSlice_bitField bs 16 16, hidx,
    isSlice_colourCode hidx⟩

/-- Settles O6: each field is a slice of the record, each nibble a slice of `AEXP` and each code one of `IDX`. -/
theorem bc2RecordFields : Obligations.BC2RecordFields := by
  intro bs hlen
  have hdecode := decode_record_of_decodeRecord .bc2 bs (decodeBC2 (leNat bs)) (congrArg some hlen.symm) rfl
  have haexp := isSlice_bitField bs 0 64
  have hidx := isSlice_bitField bs 96 32
  refine ⟨_, _, _, _, hdecode, haexp, isSlice_bitField bs 64 16, isSlice_bitField bs 80 16, hidx,
    fun i hi => ⟨?_, isSlice_colourCode hidx i hi⟩⟩
  simpa only [Nat.zero_add] using isSlice_alphaNibble haexp i hi

end Sys2Proof.Proofs
end

section
/-! PROOFS. PALX (spec/40_endpoint_palette.md): the channel expansions (O9), what they are not (O10), and the palettes'
entries (O15). Each value below is a byte computed in `Nat` and narrowed at the end; that it fits is said once, here. -/

namespace Sys2Proof.Proofs

open Sys2Proof.Machine Sys2Proof.Laws

/-! ## No value is cut to a byte -/

/-- `EXPAND5` in exact arithmetic (spec/40_endpoint_palette.md R100). -/
theorem toNat_expand5 (v : BitVec 5) :
    (expand5 v).toNat = ((v.toNat * 255 + 16) / 32 + (v.toNat * 255 + 16)) / 32 := by
  have hv : v.toNat < 32 := v.isLt
  exact Nat.mod_eq_of_lt (by omega)

/-- `EXPAND6` in exact arithmetic (spec/40_endpoint_palette.md R101). -/
theorem toNat_expand6 (v : BitVec 6) :
    (expand6 v).toNat = ((v.toNat * 255 + 32) / 64 + (v.toNat * 255 + 32)) / 64 := by
  have hv : v.toNat < 64 := v.isLt
  exact Nat.mod_eq_of_lt (by omega)

/-- The mean of a four-colour entry in exact arithmetic (spec/40_endpoint_palette.md R105, R110). -/
theorem toNat_third (p q : Byte) : (third p q).toNat = (2 * p.toNat + q.toNat) / 3 := by
  have hp : p.toNat < 256 := p.isLt
  have hq : q.toNat < 256 := q.isLt
  exact Nat.mod_eq_of_lt (by omega)

/-- The mean of a three-colour entry in exact arithmetic (spec/40_endpoint_palette.md R106, R110). -/
theorem toNat_half (p q : Byte) : (half p q).toNat = (p.toNat + q.toNat) / 2 := by
  have hp : p.toNat < 256 := p.isLt
  have hq : q.toNat < 256 := q.isLt
  exact Nat.mod_eq_of_lt (by omega)

/-! ## The expansions -/

/-- Settles O9: the formulas' values are below 256. -/
theorem expansionsAreTheTwoPassFormulas : Obligations.ExpansionsAreTheTwoPassFormulas :=
  ⟨toNat_expand5, toNat_expand6⟩

/-- A step of `v` adds 255 to the first pass, which is more than its two divisions by 32 can hide. -/
theorem expand5_strictMono (v w : BitVec 5) (h : v.toNat < w.toNat) : (expand5 v).toNat < (expand5 w).toNat := by
  rw [toNat_expand5, toNat_expand5]
  omega

/-- A step of `v` adds 255 to the first pass, which is more than its two divisions by 64 can hide. -/
theorem expand6_strictMono (v w : BitVec 6) (h : v.toNat < w.toNat) : (expand6 v).toNat < (expand6 w).toNat := by
  rw [toNat_expand6, toNat_expand6]
  omega

/-- Settles O10: the expansions increase by the size of a step, and the lists of differences are a sweep over the 32 or
64 values of a channel. -/
theorem expansionsAreNoOtherRescale : Obligations.ExpansionsAreNoOtherRescale := by
  refine ⟨expand5_strictMono, expand6_strictMono, ?bits5, ?bits6, ?nearest5, ?nearest6⟩
  case bits5 => decide
  case bits6 => decide
  case nearest5 => decide
  case nearest6 => decide

/-! ## The palettes -/

/-- Colour select (spec/40_endpoint_palette.md R107). -/
@[simp] theorem csel_zero (p : Palette) : csel p 0 = p.p0 := rfl
@[simp] theorem csel_one (p : Palette) : csel p 1 = p.p1 := rfl
@[simp] theorem csel_two (p : Palette) : csel p 2 = p.p2 := rfl
@[simp] theorem csel_three (p : Palette) : csel p 3 = p.p3 := rfl

/-- Settles O15: the entries are the endpoints and their means, which are exact. Entry 3 of the four-colour palette is
the mean of entry 2 with the endpoints exchanged. -/
theorem paletteEntriesAreExact : Obligations.PaletteEntriesAreExact := by
  intro e0 e1
  have hswap (p q : Byte) : (third q p).toNat = (p.toNat + 2 * q.toNat) / 3 := by
    rw [toNat_third, Nat.add_comm]
  simp only [csel_zero, csel_one, csel_two, csel_three]
  exact ⟨rfl, rfl,
    toNat_third e0.r e1.r, toNat_third e0.g e1.g, toNat_third e0.b e1.b, rfl,
    hswap e0.r e1.r, hswap e0.g e1.g, hswap e0.b e1.b, rfl,
    rfl, rfl,
    toNat_half e0.r e1.r, toNat_half e0.g e1.g, toNat_half e0.b e1.b, rfl,
    rfl⟩

end Sys2Proof.Proofs
end

section
/-! PROOFS. BC1 (spec/41_bc1_block.md): the effect of a block step, which every block operation shares, and with it
`BLK.BC1` (O24); the binary alpha of its texels (O12). -/

namespace Sys2Proof.Proofs

open Sys2Proof.Machine Sys2Proof.Laws

/-! ## The effect of a block step -/

/-- The advance, field by field: the cursor by one record, the coordinates in row-major order
(spec/44_image_decode.md R186, R187). -/
theorem advance_eq (r : Run) : r.advance = { r with
    cur := r.cur + r.bsz
    blkX := if r.blkX + 1 = r.nbx then 0 else r.blkX + 1
    blkY := if r.blkX + 1 = r.nbx then r.blkY + 1 else r.blkY } := by
  unfold Run.advance
  split <;> rfl

/-- A block step stores its texels at the addresses XLAT gives, moves the cursor and the coordinates, completes the run
after the last block, and changes nothing else (spec/44_image_decode.md R186). -/
theorem blockStepped_afterBlock (texel : Nat → RGBA) (s : State) (hm : Memory.wf s.outMem = true) :
    blockStepped texel s (afterBlock texel s) := by
  have hstatus : statusAfter s.run.advance = if s.run.advance.blkY = s.run.nby then .done else .busy := by
    rw [statusAfter, advance_nby]
  refine ⟨?stored, ?others, advance_eq s.run, congrArg (fun x => { s.regs with status := x }) hstatus, rfl, rfl, rfl⟩
  case stored => exact fun i hi addr hx c hc => read_storeTile_same _ _ _ _ texel _ i addr c hm hi hx hc
  case others => exact fun a ha => read_storeTile_other _ _ _ _ texel _ a ha

/-- In BUSY, a record with these texels completes with the effect of their block step. -/
theorem exec_blockStepped (i : Instr) (texel : Nat → RGBA) (s : State) (hi : ∀ n, recordTexel i n = some (texel n))
    (hb : s.regs.status = .busy) (hm : Memory.wf s.outMem = true) :
    ∃ t, exec i s = .next t ∧ blockStepped texel s t :=
  ⟨afterBlock texel s, (exec_eq_blockStep i texel s hi).trans (blockStep_busy texel s hb),
    blockStepped_afterBlock texel s hm⟩

/-! ## The texels of BC1 -/

/-- A BC1 texel is an entry of the four-colour palette when `C0 > C1`, and of the three-colour palette otherwise
(spec/41_bc1_block.md R120, R121). -/
theorem texelBC1_eq (c0 c1 : Colour565) (idx : BitVec 32) (i : Nat) :
    texelBC1 c0 c1 idx i = csel
      (if c1.toNat < c0.toNat then pal4 (rgb565to888 c0) (rgb565to888 c1)
        else pal3 (rgb565to888 c0) (rgb565to888 c1))
      (colourCode idx i) := by
  simp [texelBC1, colourTile, blockPalette, fourColour, palette4, palette3]

/-- Settles O24: `BLK.BC1` is the block step of its texels. -/
theorem blkBC1Completes : Obligations.BlkBC1Completes := fun c0 c1 idx s hb hm =>
  exec_blockStepped (.blkBC1 c0 c1 idx) _ s (fun i => congrArg some (texelBC1_eq c0 c1 idx i)) hb hm

/-! ## The alpha of BC1 -/

/-- There are four colour codes. -/
theorem colourCode_cases (k : BitVec 2) : k = 0 ∨ k = 1 ∨ k = 2 ∨ k = 3 := by
  revert k
  decide

/-- The four-colour palette is opaque (spec/40_endpoint_palette.md R105). -/
theorem csel_pal4_alpha (e0 e1 : RGB) (k : BitVec 2) : (csel (pal4 e0 e1) k).a = 255 := by
  rcases colourCode_cases k with rfl | rfl | rfl | rfl <;> rfl

/-- The three-colour palette is opaque but for its entry 3 (spec/40_endpoint_palette.md R106). -/
theorem csel_pal3_alpha (e0 e1 : RGB) (k : BitVec 2) : (csel (pal3 e0 e1) k).a = if k = 3 then 0 else 255 := by
  rcases colourCode_cases k with rfl | rfl | rfl | rfl <;> rfl

/-- A BC1 texel's alpha says whether it is entry 3 of the three-colour palette (spec/41_bc1_block.md R122). -/
theorem texelBC1_alpha (c0 c1 : Colour565) (idx : BitVec 32) (i : Nat) :
    (texelBC1 c0 c1 idx i).a = if c0.toNat ≤ c1.toNat ∧ colourCode idx i = 3 then 0 else 255 := by
  rw [texelBC1_eq]
  by_cases h : c1.toNat < c0.toNat
  · rw [if_pos h, csel_pal4_alpha, if_neg fun ⟨hle, _⟩ => Nat.not_le.mpr h hle]
  · simp only [if_neg h, csel_pal3_alpha, Nat.le_of_not_lt h, true_and]

/-- Settles O12: a texel with alpha 0 can only be entry 3 of the three-colour palette, which is black. -/
theorem bc1AlphaIsBinary : Obligations.BC1AlphaIsBinary := by
  intro c0 c1 idx i
  refine ⟨texelBC1_alpha c0 c1 idx i, fun hzero => ?_⟩
  obtain ⟨hle, hcode⟩ : c0.toNat ≤ c1.toNat ∧ colourCode idx i = 3 := by
    by_contra hother
    rw [texelBC1_alpha, if_neg hother] at hzero
    exact absurd hzero (by decide)
  rw [texelBC1_eq, if_neg (Nat.not_lt.mpr hle), hcode, csel_three]
  rfl

end Sys2Proof.Proofs
end

section
/-! PROOFS. BC2 (spec/42_bc2_block.md): the colour half that BC2 and BC3 share (O13), the nibble written twice and the
selector code that makes it (O19), and with both `BLK.BC2` (O25). -/

namespace Sys2Proof.Proofs

open Sys2Proof.Machine Sys2Proof.Laws

/-! ## The colour of a record with an alpha half -/

/-- Without the three-colour mode the palette is the four-colour one: the endpoints are not compared
(spec/42_bc2_block.md R143, spec/43_bc3_block.md R165). -/
theorem colourTile_noPunch (c0 c1 : Colour565) (idx : BitVec 32) (i : Nat) :
    colourTile c0 c1 idx false i = csel (pal4 (rgb565to888 c0) (rgb565to888 c1)) (colourCode idx i) := by
  rw [colourTile, blockPalette, Bool.not_false, Bool.or_true, if_pos rfl, palette4]

/-- Settles O13: both formats take their colour from the palette without the three-colour mode. -/
theorem bc2AndBC3ColourIgnoresEndpointOrder : Obligations.BC2AndBC3ColourIgnoresEndpointOrder := by
  intro c0 c1 idx i aexp a0 a1 aidx
  rw [texelBC2, texelBC3, colourTile_noPunch]
  exact ⟨⟨_, rfl⟩, ⟨_, rfl⟩⟩

/-! ## The explicit alpha -/

/-- Nibble expansion writes the nibble twice (spec/42_bc2_block.md R142). -/
theorem expandNibble_eq_append (n : BitVec 4) : expandNibble n = n ++ n := by
  revert n
  decide

/-- A nibble written twice is 17 times the nibble (spec/42_bc2_block.md R142). -/
theorem toNat_nibble_append_self (n : BitVec 4) : (n ++ n).toNat = 17 * n.toNat := by
  revert n
  decide

/-- `AEXP` makes the expanded nibble the lane's alpha. -/
theorem exec_aexp (n : BitVec 4) (s : State) : exec (.aexp n) s = .next (s.withAlpha (expandNibble n)) := rfl

/-- Settles O19: the expanded nibble is the nibble written twice, and `withAlpha` changes the lane's alpha alone. -/
theorem explicitAlphaCompletes : Obligations.ExplicitAlphaCompletes := by
  intro s n
  refine ⟨?_, toNat_nibble_append_self n⟩
  rw [exec_aexp, expandNibble_eq_append]
  rfl

/-! ## The block operation -/

/-- A BC2 texel is an entry of the four-colour palette with its nibble written twice as alpha
(spec/42_bc2_block.md R140). -/
theorem texelBC2_eq (aexp : BitVec 64) (c0 c1 : Colour565) (idx : BitVec 32) (i : Nat) :
    texelBC2 aexp c0 c1 idx i =
      { csel (pal4 (rgb565to888 c0) (rgb565to888 c1)) (colourCode idx i) with
        a := alphaNibble aexp i ++ alphaNibble aexp i } := by
  rw [texelBC2, colourTile_noPunch, expandNibble_eq_append]

/-- Settles O25: `BLK.BC2` is the block step of its texels. -/
theorem blkBC2Completes : Obligations.BlkBC2Completes := fun aexp c0 c1 idx s hb hm =>
  exec_blockStepped (.blkBC2 aexp c0 c1 idx) _ s (fun i => congrArg some (texelBC2_eq aexp c0 c1 idx i)) hb hm

end Sys2Proof.Proofs
end

section
/-! PROOFS. BC3 (spec/43_bc3_block.md): the entries of the alpha tables (O16), their bounds and order (O14), the selector
codes that make them (O20, O21), and `BLK.BC3` (O26). An entry between the endpoints is a mean of them with weights that
sum to the divisor; what is true of such a mean is said once, for both tables. -/

namespace Sys2Proof.Proofs

open Sys2Proof.Machine Sys2Proof.Laws

/-! ## Weighted means, truncated -/

section WeightedMean

variable {p q m n m' n' d : Nat}

/-- Truncation does not bring a weighted mean below a lower bound of both ends. -/
theorem le_weightedMean {lo : Nat} (hd : 0 < d) (hsum : m + n = d) (hp : lo ≤ p) (hq : lo ≤ q) :
    lo ≤ (m * p + n * q) / d := by
  rw [Nat.le_div_iff_mul_le hd, ← hsum, Nat.mul_comm, Nat.add_mul]
  exact Nat.add_le_add (Nat.mul_le_mul_left m hp) (Nat.mul_le_mul_left n hq)

/-- A weighted mean is at most an upper bound of both ends. -/
theorem weightedMean_le {hi : Nat} (hsum : m + n = d) (hp : p ≤ hi) (hq : q ≤ hi) : (m * p + n * q) / d ≤ hi := by
  apply Nat.div_le_of_le_mul
  rw [← hsum, Nat.add_mul]
  exact Nat.add_le_add (Nat.mul_le_mul_left m hp) (Nat.mul_le_mul_left n hq)

/-- Weight moved to the greater end raises the mean. -/
theorem weightedMean_mono (hpq : p ≤ q) (hsum : m + n = m' + n') (hn : n ≤ n') :
    (m * p + n * q) / d ≤ (m' * p + n' * q) / d := by
  obtain ⟨c, rfl⟩ := Nat.exists_eq_add_of_le hn
  obtain rfl : m = m' + c := by omega
  have hmoved : c * p ≤ c * q := Nat.mul_le_mul_left c hpq
  apply Nat.div_le_div_right
  rw [Nat.add_mul, Nat.add_mul]
  omega

end WeightedMean

/-! ## The entries of the two tables -/

/-- Code 0 is the first endpoint and code 1 the second, in both tables (spec/43_bc3_block.md R162, R163). -/
@[simp] theorem grad6_zero (a0 a1 : Byte) : grad6 a0 a1 0 = a0 := rfl
@[simp] theorem grad6_one (a0 a1 : Byte) : grad6 a0 a1 1 = a1 := rfl
@[simp] theorem grad4_zero (a0 a1 : Byte) : grad4 a0 a1 0 = a0 := rfl
@[simp] theorem grad4_one (a0 a1 : Byte) : grad4 a0 a1 1 = a1 := rfl
@[simp] theorem grad4_six (a0 a1 : Byte) : grad4 a0 a1 6 = 0 := rfl
@[simp] theorem grad4_seven (a0 a1 : Byte) : grad4 a0 a1 7 = 255 := rfl

/-- An entry of the grad6 table between the endpoints in exact arithmetic (spec/43_bc3_block.md R162, R166). -/
theorem toNat_grad6 (a0 a1 : Byte) (k : BitVec 3) (hk : 2 ≤ k.toNat) :
    (grad6 a0 a1 k).toNat = ((8 - k.toNat) * a0.toNat + (k.toNat - 1) * a1.toNat) / 7 := by
  have hfits : ((8 - k.toNat) * a0.toNat + (k.toNat - 1) * a1.toNat) / 7 ≤ 255 :=
    weightedMean_le (by omega) (Nat.le_of_lt_succ a0.isLt) (Nat.le_of_lt_succ a1.isLt)
  unfold grad6
  split
  · omega
  · omega
  · exact Nat.mod_eq_of_lt (Nat.lt_succ_of_le hfits)

/-- An entry of the grad4 table between the endpoints in exact arithmetic (spec/43_bc3_block.md R163, R166). -/
theorem toNat_grad4 (a0 a1 : Byte) (k : BitVec 3) (hk : 2 ≤ k.toNat) (hk5 : k.toNat ≤ 5) :
    (grad4 a0 a1 k).toNat = ((6 - k.toNat) * a0.toNat + (k.toNat - 1) * a1.toNat) / 5 := by
  have hfits : ((6 - k.toNat) * a0.toNat + (k.toNat - 1) * a1.toNat) / 5 ≤ 255 :=
    weightedMean_le (by omega) (Nat.le_of_lt_succ a0.isLt) (Nat.le_of_lt_succ a1.isLt)
  unfold grad4
  split
  · omega
  · omega
  · omega
  · omega
  · exact Nat.mod_eq_of_lt (Nat.lt_succ_of_le hfits)

/-- `toNat_grad6` with the code given as a number. -/
theorem toNat_grad6_ofNat (a0 a1 : Byte) (k : Nat) (hk : 2 ≤ k) (hk7 : k ≤ 7) :
    (grad6 a0 a1 (BitVec.ofNat 3 k)).toNat = ((8 - k) * a0.toNat + (k - 1) * a1.toNat) / 7 := by
  have hcode : (BitVec.ofNat 3 k).toNat = k := Nat.mod_eq_of_lt (Nat.lt_succ_of_le hk7)
  rw [toNat_grad6 _ _ _ (hcode.symm ▸ hk), hcode]

/-- `toNat_grad4` with the code given as a number. -/
theorem toNat_grad4_ofNat (a0 a1 : Byte) (k : Nat) (hk : 2 ≤ k) (hk5 : k ≤ 5) :
    (grad4 a0 a1 (BitVec.ofNat 3 k)).toNat = ((6 - k) * a0.toNat + (k - 1) * a1.toNat) / 5 := by
  have hcode : (BitVec.ofNat 3 k).toNat = k := Nat.mod_eq_of_lt (by omega)
  rw [toNat_grad4 _ _ _ (hcode.symm ▸ hk) (hcode.symm ▸ hk5), hcode]

/-- Settles O16: the means do not exceed a byte, and the expanded nibble is the nibble written twice. -/
theorem alphaEntriesAreExact : Obligations.AlphaEntriesAreExact := by
  refine ⟨fun a0 a1 => ⟨grad6_zero a0 a1, grad6_one a0 a1, toNat_grad6_ofNat a0 a1,
    grad4_zero a0 a1, grad4_one a0 a1, toNat_grad4_ofNat a0 a1, grad4_six a0 a1, grad4_seven a0 a1⟩, fun n => ?_⟩
  rw [expandNibble_eq_append]
  exact ⟨rfl, toNat_nibble_append_self n⟩

/-! ## Bounds and order -/

/-- The alpha table of a record is the grad6 table when `A0 > A1` and the grad4 table otherwise
(spec/43_bc3_block.md R160). -/
theorem alphaTable_eq (a0 a1 : Byte) (k : BitVec 3) :
    alphaTable a0 a1 k = if a1.toNat < a0.toNat then grad6 a0 a1 k else grad4 a0 a1 k := by
  simp [alphaTable, gradSix]

/-- An alpha code names an endpoint or an entry after the two. -/
theorem alphaCode_cases (k : BitVec 3) : k = 0 ∨ k = 1 ∨ 2 ≤ k.toNat := by
  revert k
  decide

/-- The grad6 table lies between its endpoints (spec/43_bc3_block.md R162, R167). -/
theorem grad6_between (a0 a1 : Byte) (h : a1.toNat ≤ a0.toNat) (k : BitVec 3) :
    a1.toNat ≤ (grad6 a0 a1 k).toNat ∧ (grad6 a0 a1 k).toNat ≤ a0.toNat := by
  rcases alphaCode_cases k with rfl | rfl | hk
  · exact ⟨h, Nat.le_refl _⟩
  · exact ⟨Nat.le_refl _, h⟩
  · rw [toNat_grad6 a0 a1 k hk]
    have hsum : 8 - k.toNat + (k.toNat - 1) = 7 := by omega
    exact ⟨le_weightedMean (by decide) hsum h (Nat.le_refl _), weightedMean_le hsum (Nat.le_refl _) h⟩

/-- The grad6 table falls from code 2 on: a greater code moves weight from `A0` to `A1`. -/
theorem grad6_antitone (a0 a1 : Byte) (h : a1.toNat ≤ a0.toNat) (j k : BitVec 3) (hj : 2 ≤ j.toNat)
    (hjk : j.toNat ≤ k.toNat) : (grad6 a0 a1 k).toNat ≤ (grad6 a0 a1 j).toNat := by
  rw [toNat_grad6 a0 a1 k (hj.trans hjk), toNat_grad6 a0 a1 j hj, Nat.add_comm, Nat.add_comm (_ * a0.toNat)]
  exact weightedMean_mono h (by omega) (by omega)

/-- The grad4 table's codes 0 to 5 lie between its endpoints (spec/43_bc3_block.md R163, R167). -/
theorem grad4_between (a0 a1 : Byte) (h : a0.toNat ≤ a1.toNat) (k : BitVec 3) (hk5 : k.toNat ≤ 5) :
    a0.toNat ≤ (grad4 a0 a1 k).toNat ∧ (grad4 a0 a1 k).toNat ≤ a1.toNat := by
  rcases alphaCode_cases k with rfl | rfl | hk
  · exact ⟨Nat.le_refl _, h⟩
  · exact ⟨h, Nat.le_refl _⟩
  · rw [toNat_grad4 a0 a1 k hk hk5]
    have hsum : 6 - k.toNat + (k.toNat - 1) = 5 := by omega
    exact ⟨le_weightedMean (by decide) hsum (Nat.le_refl _) h, weightedMean_le hsum h (Nat.le_refl _)⟩

/-- The grad4 table rises from code 2 to code 5: a greater code moves weight from `A0` to `A1`. -/
theorem grad4_monotone (a0 a1 : Byte) (h : a0.toNat ≤ a1.toNat) (j k : BitVec 3) (hj : 2 ≤ j.toNat)
    (hjk : j.toNat ≤ k.toNat) (hk5 : k.toNat ≤ 5) : (grad4 a0 a1 j).toNat ≤ (grad4 a0 a1 k).toNat := by
  rw [toNat_grad4 a0 a1 j hj (hjk.trans hk5), toNat_grad4 a0 a1 k (hj.trans hjk) hk5]
  exact weightedMean_mono h (by omega) (by omega)

/-- Settles O14: the order of the endpoints chooses the table, whose bounds and order are those of its means. -/
theorem alphaTablesAreOrderedMeans : Obligations.AlphaTablesAreOrderedMeans := by
  refine fun a0 a1 => ⟨fun hgt => ?grad6, fun hle => ?grad4⟩
  case grad6 =>
    simp only [alphaTable_eq, if_pos hgt]
    exact ⟨grad6_zero a0 a1, grad6_one a0 a1, grad6_between a0 a1 hgt.le, grad6_antitone a0 a1 hgt.le⟩
  case grad4 =>
    simp only [alphaTable_eq, if_neg (Nat.not_lt.mpr hle)]
    exact ⟨grad4_zero a0 a1, grad4_one a0 a1, grad4_six a0 a1, grad4_seven a0 a1, grad4_between a0 a1 hle,
      grad4_monotone a0 a1 hle⟩

/-! ## The selector codes -/

/-- The code that decodes to grad6 entry `k` makes that entry the lane's alpha (spec/43_bc3_block.md R162). -/
theorem exec_agrad6Of (k : Nat) (i : Instr) (s : State) (h : agrad6Of k = some i) :
    exec i s = .next (s.withAlpha (grad6 s.lane.a0 s.lane.a1 (BitVec.ofNat 3 k))) := by
  unfold agrad6Of at h
  split at h <;> cases h <;> rfl

/-- The code that decodes to grad4 entry `k` makes that entry the lane's alpha (spec/43_bc3_block.md R163). -/
theorem exec_agrad4Of (k : Nat) (i : Instr) (s : State) (h : agrad4Of k = some i) :
    exec i s = .next (s.withAlpha (grad4 s.lane.a0 s.lane.a1 (BitVec.ofNat 3 k))) := by
  unfold agrad4Of at h
  split at h <;> cases h <;> rfl

/-- Settles O20: each code makes its entry the lane's alpha, which `withAlpha` changes alone. -/
theorem gradSixCodesComplete : Obligations.GradSixCodesComplete := by
  refine fun s => ⟨exec_agrad6Of 0 _ s rfl, exec_agrad6Of 1 _ s rfl, fun i k hik => ?_⟩
  obtain ⟨hcode, hk, hk7⟩ : agrad6Of k = some i ∧ 2 ≤ k ∧ k ≤ 7 :=
    (by decide : ∀ e ∈ _, agrad6Of e.2 = some e.1 ∧ 2 ≤ e.2 ∧ e.2 ≤ 7) (i, k) hik
  exact ⟨_, exec_agrad6Of k i s hcode, toNat_grad6_ofNat _ _ k hk hk7⟩

/-- Settles O21: each code makes its entry the lane's alpha, which `withAlpha` changes alone. -/
theorem gradFourCodesComplete : Obligations.GradFourCodesComplete := by
  refine fun s => ⟨exec_agrad4Of 0 _ s rfl, exec_agrad4Of 1 _ s rfl, fun i k hik => ?_,
    exec_agrad4Of 6 _ s rfl, exec_agrad4Of 7 _ s rfl⟩
  obtain ⟨hcode, hk, hk5⟩ : agrad4Of k = some i ∧ 2 ≤ k ∧ k ≤ 5 :=
    (by decide : ∀ e ∈ _, agrad4Of e.2 = some e.1 ∧ 2 ≤ e.2 ∧ e.2 ≤ 5) (i, k) hik
  exact ⟨_, exec_agrad4Of k i s hcode, toNat_grad4_ofNat _ _ k hk hk5⟩

/-! ## The block operation -/

/-- A BC3 texel is an entry of the four-colour palette with its alpha code's entry of the alpha table as alpha
(spec/43_bc3_block.md R160). -/
theorem texelBC3_eq (a0 a1 : Byte) (aidx : BitVec 48) (c0 c1 : Colour565) (idx : BitVec 32) (i : Nat) :
    texelBC3 a0 a1 aidx c0 c1 idx i =
      { csel (pal4 (rgb565to888 c0) (rgb565to888 c1)) (colourCode idx i) with
        a := if a1.toNat < a0.toNat then grad6 a0 a1 (alphaCode aidx i) else grad4 a0 a1 (alphaCode aidx i) } := by
  rw [texelBC3, colourTile_noPunch, alphaTable_eq]

/-- Settles O26: `BLK.BC3` is the block step of its texels. -/
theorem blkBC3Completes : Obligations.BlkBC3Completes := fun a0 a1 aidx c0 c1 idx s hb hm =>
  exec_blockStepped (.blkBC3 a0 a1 aidx c0 c1 idx) _ s
    (fun i => congrArg some (texelBC3_eq a0 a1 aidx c0 c1 idx i)) hb hm

end Sys2Proof.Proofs
end

section
/-! PROOFS. The image (spec/44_image_decode.md): where XLAT sends a texel (O28) and what of the grid it covers and clips
(O29, O30), the sizes of a run that START accepts (O31), the error it reports otherwise (O34), and the end of a run that
is left to `DEC` (O52). -/

namespace Sys2Proof.Proofs

open Sys2Proof.Machine Sys2Proof.Laws

/-! ## XLAT and the block grid -/

/-- A texel's place in its block's row is its pixel's column (spec/44_image_decode.md R188). -/
theorem texelX_texel (bx row col : Nat) (hcol : col < 4) : texelX bx (4 * row + col) = 4 * bx + col := by
  unfold texelX
  omega

/-- A texel's row in its block is its pixel's row (spec/44_image_decode.md R188). -/
theorem texelY_texel (by' row col : Nat) (hcol : col < 4) : texelY by' (4 * row + col) = 4 * by' + row := by
  unfold texelY
  omega

/-- Settles O28: the model's texel number names the row and the column. -/
theorem xlatAddressesThePixel : Obligations.XlatAddressesThePixel := by
  intro bx by' row col w h _ hcol
  rw [xlat, texelX_texel bx row col hcol, texelY_texel by' row col hcol, pixelAddr]

/-- A texel is sent to a pixel of the image exactly when it has that pixel's coordinates. -/
theorem xlat_eq_pixelAddr_iff (bx by' i x y : Nat) (w h : Word) (hx : x < w.toNat) (hy : y < h.toNat) :
    xlat bx by' i w h = some (pixelAddr w x y) ↔ texelX bx i = x ∧ texelY by' i = y := by
  constructor
  · intro hxlat
    obtain ⟨hX, _, haddr⟩ := xlat_some _ _ _ _ _ _ hxlat
    exact pixelAddr_inj w _ _ _ _ hX hx haddr.symm
  · rintro ⟨rfl, rfl⟩
    exact if_pos ⟨hx, hy⟩

/-- Settles O29: a coordinate is four times the block's plus the texel's within it, and division by 4 splits it. -/
theorem everyPixelIsStoredExactlyOnce : Obligations.EveryPixelIsStoredExactlyOnce := by
  intro w h x y hx hy bx by' i hi
  have hpixel := xlat_eq_pixelAddr_iff bx by' i x y w h hx hy
  rw [← pixelAddr, hpixel]
  unfold ceil4 texelX texelY
  omega

/-- The edge clip stores a texel exactly when its pixel is in the image (spec/44_image_decode.md R189). -/
theorem xlat_isSome_iff (bx by' i : Nat) (w h : Word) :
    (xlat bx by' i w h).isSome = true ↔ texelX bx i < w.toNat ∧ texelY by' i < h.toNat := by
  simp [xlat]

/-- Settles O30: a block's first texel is in the image, and a block that has neighbours to the right and below is whole. -/
theorem onlyEdgeBlocksAreClipped : Obligations.OnlyEdgeBlocksAreClipped := by
  intro w h bx by' hbx hby
  unfold ceil4 at *
  constructor
  · refine ⟨0, by decide, (xlat_isSome_iff bx by' 0 w h).mpr ?_⟩
    unfold texelX texelY
    omega
  · intro hright hbelow i hi
    refine (xlat_isSome_iff bx by' i w h).mpr ?_
    unfold texelX texelY
    omega

/-! ## The sizes of an accepted run -/

/-- A record of any format has at least 8 bytes (spec/30_encoding.md R82). -/
theorem eight_le_of_size? (f : Format) (b : Nat) (h : f.size? = some b) : 8 ≤ b := by
  cases f <;> cases h <;> decide

/-- The image has at most sixteen pixels a block. -/
theorem pixels_le_blocks (m n : Nat) : m * n ≤ 16 * (ceil4 m * ceil4 n) := by
  have hm : m ≤ 4 * ceil4 m := by unfold ceil4; omega
  have hn : n ≤ 4 * ceil4 n := by unfold ceil4; omega
  calc m * n ≤ 4 * ceil4 m * (4 * ceil4 n) := Nat.mul_le_mul hm hn
    _ = 16 * (ceil4 m * ceil4 n) := by ring

/-- Settles O31: `REQ <= L`, a block takes at least 8 bytes of `REQ` and has at most 16 pixels, of 4 bytes each. -/
theorem acceptedRunsFit : Obligations.AcceptedRunsFit := by
  intro f w h l b hv
  obtain ⟨hsize, _, _, hreq⟩ := validate_ok f w h l b hv
  have hlen := l.isLt
  have hblocks : ceil4 w.toNat * ceil4 h.toNat * 8 ≤ requiredLength w h b :=
    Nat.mul_le_mul_left _ (eight_le_of_size? f b hsize)
  have hpixels := pixels_le_blocks w.toNat h.toNat
  unfold imageBytes
  omega

/-! ## START's checks -/

/-- A tag of the format table names its row's format (spec/30_encoding.md R79). -/
theorem ofTag_of_mem_formatRows (tag : Word) (f : Format) (n : Nat) (h : (tag, f, n) ∈ formatRows) :
    Format.ofTag tag = f := by
  simp only [formatRows, List.mem_cons, Prod.mk.injEq, List.not_mem_nil, or_false] at h
  rcases h with ⟨rfl, rfl, _⟩ | ⟨rfl, rfl, _⟩ | ⟨rfl, rfl, _⟩ <;> rfl

/-- A tag other than 1, 2 and 3 names no format, and no record length (spec/30_encoding.md R79). -/
theorem size?_ofTag_unsupported (tag : Word) (h1 : tag ≠ 1) (h2 : tag ≠ 2) (h3 : tag ≠ 3) :
    (Format.ofTag tag).size? = none := by
  simp only [Format.ofTag, Config.tagBC1, Config.tagBC2, Config.tagBC3, h1, h2, h3, if_false, Format.size?]

/-- The first check fails on what is no format (spec/44_image_decode.md R185). -/
theorem validate_unsupported (f : Format) (w h l : Word) (hf : f.size? = none) :
    validate f w h l = .error .unsupportedFormat := by
  simp only [validate, hf]

/-- The second check fails on a zero dimension (spec/44_image_decode.md R185). -/
theorem validate_zero (f : Format) (w h l : Word) (b : Nat) (hf : f.size? = some b) (hz : w = 0 ∨ h = 0) :
    validate f w h l = .error .invalidDimensions := by
  simp only [validate, hf, if_pos hz]

/-- The third check fails on a buffer that is too short (spec/44_image_decode.md R185). -/
theorem validate_short (f : Format) (w h l : Word) (b : Nat) (hf : f.size? = some b) (hw : w ≠ 0) (hh : h ≠ 0)
    (hl : l.toNat < requiredLength w h b) : validate f w h l = .error .unexpectedEndOfData := by
  simp only [validate, hf, hw, hh, or_self, if_false, if_pos hl]

/-- START reports the error that validation gives, with `STATUS` ERROR (spec/60_exceptions.md R215). -/
theorem start_reports (s : State) (e : Err) (hs : s.regs.status ≠ .busy)
    (hv : validate (Format.ofTag s.regs.format) s.regs.width s.regs.height s.regs.len = .error e) :
    ∃ t, exec .start s = .next t ∧ t.regs.status = .error ∧ t.regs.err = some e :=
  ⟨_, execStart_error s e hs hv, rfl, rfl⟩

/-- Settles O34: validation fails with the first check's error. -/
theorem startReportsTheFirstError : Obligations.StartReportsTheFirstError := by
  intro s hs
  constructor
  · intro h1 h2 h3
    exact start_reports s _ hs (validate_unsupported _ _ _ _ (size?_ofTag_unsupported _ h1 h2 h3))
  · intro f b hrow
    obtain rfl := ofTag_of_mem_formatRows _ f b hrow
    have hsize := size?_of_mem_formatRows _ _ b hrow
    exact ⟨fun hz => start_reports s _ hs (validate_zero _ _ _ _ b hsize hz),
      fun hw hh hl => start_reports s _ hs (validate_short _ _ _ _ b hsize hw hh hl)⟩

/-! ## The end of a run -/

/-- In BUSY with nothing else to come, the invariant and the partial image make a run left to `DEC`. -/
theorem decRun_of_inv (s : State) (hi : s.Inv) (hp : PartialImage s) (hb : s.regs.status = .busy)
    (ha : s.host.agenda = []) : DecRun s.host.outBefore s := by
  obtain ⟨⟨_, hwf, _⟩, hs⟩ := hi
  simp only [statusSound, hb] at hs
  obtain ⟨herr, hprogress, _⟩ := hs
  exact ⟨hb, herr, ha, hprogress, hwf, (partialImage_iff s hb).mp hp⟩

/-- `REQ` stays what it was: the block size is the latched format's. -/
theorem SameRun.req {s t : State} (h : SameRun s t) (hs : s.run.latched) (ht : t.run.latched) :
    t.run.req = s.run.req := by
  obtain ⟨hsize, _⟩ := hs
  obtain ⟨hsize', _⟩ := ht
  rw [h.f, hsize] at hsize'
  rw [Run.req, Run.req, h.nbx, h.nby, Option.some.inj hsize']

/-- Settles O52: the run is left to `DEC`, and as many steps as blocks are left end it with its image. -/
theorem runEndsWithTheImage : Obligations.RunEndsWithTheImage := by
  intro s hi hp hb ha
  have hrun := decRun_of_inv s hi hp hb ha
  have hleft := blocksDone_lt s.run hrun.progress
  obtain ⟨t, ht, hsame, hdone⟩ := run_decRun _ _ s hrun (Nat.add_sub_cancel' hleft.le)
  have himage := holdsImage_of_completed _ t hdone.completed hdone.image
  obtain ⟨hlatched, _, _, hcur⟩ := hdone.completed
  exact ⟨t, ht, hdone.done, hdone.err, hcur.trans (hsame.req hrun.progress.1 hlatched), hsame.f, hsame.w, hsame.h,
    hsame.inMem ▸ himage, hsame.outside⟩

end Sys2Proof.Proofs
end

section
/-! PROOFS. Errors (spec/60_exceptions.md): what taking one changes (O35), a dimension with bit 31 set (O36), and that
`DEC`'s step in BUSY meets none (O43). -/

namespace Sys2Proof.Proofs

open Sys2Proof.Machine Sys2Proof.Laws

/-! ## Taking an error -/

/-- Settles O35: START latches, then raises the error, and each of the two updates leaves the rest alone. -/
theorem errorEntryChangesOnlyErrAndStatus : Obligations.ErrorEntryChangesOnlyErrAndStatus := by
  intro s e hs hv
  exact ⟨raise e (latch s), execStart_error s e hs hv, by simp⟩

/-! ## Dimensions with bit 31 set -/

/-- A dimension with bit 31 set has at least `2^29` blocks. -/
theorem two_pow_29_le_ceil4 (n : Nat) (h : 2 ^ 31 ≤ n) : 2 ^ 29 ≤ ceil4 n := by
  unfold ceil4
  omega

/-- With bit 31 set in one dimension, the records exceed every value of `LEN` (spec/60_exceptions.md R211). -/
theorem len_lt_requiredLength_of_huge (w h l : Word) (b : Nat) (hb : 8 ≤ b) (hw : w ≠ 0) (hh : h ≠ 0)
    (hhuge : 2 ^ 31 ≤ w.toNat ∨ 2 ^ 31 ≤ h.toNat) : l.toNat < requiredLength w h b := by
  have hblocks : 2 ^ 29 ≤ ceil4 w.toNat * ceil4 h.toNat := by
    rcases hhuge with hw31 | hh31
    · exact (two_pow_29_le_ceil4 _ hw31).trans (Nat.le_mul_of_pos_right _ (ceil4_pos h hh))
    · exact (two_pow_29_le_ceil4 _ hh31).trans (Nat.le_mul_of_pos_left _ (ceil4_pos w hw))
  calc l.toNat < 2 ^ 29 * 8 := l.isLt
    _ ≤ requiredLength w h b := Nat.mul_le_mul hblocks hb

/-- Settles O36: the dimensions pass the second check, and no `LEN` is long enough for the third. -/
theorem hugeDimensionsEndAsTooShort : Obligations.HugeDimensionsEndAsTooShort := by
  intro s f b hs hrow hw hh hhuge
  obtain rfl := ofTag_of_mem_formatRows _ f b hrow
  have hsize := size?_of_mem_formatRows _ _ b hrow
  have hshort := len_lt_requiredLength_of_huge _ _ s.regs.len b (eight_le_of_size? _ b hsize) hw hh hhuge
  exact start_reports s _ hs (validate_short _ _ _ _ b hsize hw hh hshort)

/-! ## No error in BUSY -/

/-- A block step leaves `STATUS` BUSY or DONE (spec/60_exceptions.md R222). -/
theorem statusAfter_busy_or_done (r : Run) : statusAfter r = .busy ∨ statusAfter r = .done :=
  (ite_eq_or_eq _ _ _).symm

/-- Settles O43: in BUSY the invariant makes the latched block size the format's, so `DEC`'s turn is a block step. -/
theorem busyAlwaysAdvances : Obligations.BusyAlwaysAdvances := by
  intro s hi hb ha
  obtain ⟨⟨hsize, _⟩, _⟩ := inProgress_of_inv s hi hb
  obtain ⟨texel, _, hstep⟩ := step_busy s hb ha hsize
  exact ⟨afterBlock texel s, hstep, advance_cur s.run, statusAfter_busy_or_done s.run.advance⟩

end Sys2Proof.Proofs
end

section
/-! PROOFS. The reset event (spec/70_reset_and_hazards.md): what writing the first bytes of a memory leaves, what an
abandoned run leaves in `OUT`, and with it the event's effect at any time (O58). -/

namespace Sys2Proof.Proofs

open Sys2Proof.Machine Sys2Proof.Laws

/-! ## Writing the first bytes of a memory -/

/-- The memory after the value `v a` is written to each byte `a` below `n`, in ascending order. -/
def writeFirst (v : Nat → Byte) (n : Nat) (m : Memory) : Memory :=
  (List.range n).foldl (fun m a => Memory.write m a (v a)) m

/-- The write to the last byte comes last. -/
theorem writeFirst_succ (v : Nat → Byte) (n : Nat) (m : Memory) :
    writeFirst v (n + 1) m = Memory.write (writeFirst v n m) n (v n) := by
  simp [writeFirst, List.range_succ]

/-- Writing the first bytes keeps the canonical form. -/
theorem wf_writeFirst (v : Nat → Byte) (n : Nat) (m : Memory) (hm : Memory.wf m = true) :
    Memory.wf (writeFirst v n m) = true := by
  induction n with
  | zero => exact hm
  | succ n ih =>
    rw [writeFirst_succ]
    exact wf_write _ n (v n) ih

/-- A byte that is not one of the first `n` is as before. -/
theorem read_writeFirst_of_le (v : Nat → Byte) (n : Nat) (m : Memory) (a : Nat) (ha : n ≤ a) :
    Memory.read (writeFirst v n m) a = Memory.read m a := by
  induction n with
  | zero => rfl
  | succ n ih => rw [writeFirst_succ, read_write_other _ _ _ _ (by omega), ih (by omega)]

/-- A byte below `n` has the value written to it: the later writes go to other bytes. -/
theorem read_writeFirst_of_lt (v : Nat → Byte) (n : Nat) (m : Memory) (a : Nat) (hm : Memory.wf m = true)
    (ha : a < n) : Memory.read (writeFirst v n m) a = v a := by
  induction n with
  | zero => omega
  | succ n ih =>
    rw [writeFirst_succ]
    by_cases hlast : a = n
    · rw [hlast, read_write_same _ _ _ (wf_writeFirst v n m hm)]
    · rw [read_write_other _ _ _ _ hlast, ih (by omega)]

/-! ## `OUT` after a reset during a run -/

/-- An abandoned run's image is written with the values of the free choice (notes/assumptions/8.md). -/
theorem abandonedOut_eq (s : State) :
    abandonedOut s = writeFirst (fun a => eitherByte s (Config.freeReset s.host.freeTick a) a)
      (imageBytes s.run.w s.run.h) s.outMem := rfl

/-- In BUSY the reset event leaves the bytes of `OUT` beyond the run's image as they are. -/
theorem read_hostReset_beyond_image (s : State) (a : Nat) (hb : s.regs.status = .busy)
    (ha : imageBytes s.run.w s.run.h ≤ a) : Memory.read (hostReset s).outMem a = Memory.read s.outMem a := by
  rw [hostReset_outMem, if_pos hb, abandonedOut_eq, read_writeFirst_of_le _ _ _ _ ha]

/-- In BUSY the reset event leaves in a byte of the run's image one of the byte's two values. -/
theorem read_hostReset_image (s : State) (a : Nat) (hm : Memory.wf s.outMem = true) (hb : s.regs.status = .busy)
    (ha : a < imageBytes s.run.w s.run.h) :
    Memory.read (hostReset s).outMem a = eitherByte s (Config.freeReset s.host.freeTick a) a := by
  rw [hostReset_outMem, if_pos hb, abandonedOut_eq, read_writeFirst_of_lt _ _ _ _ hm ha]

/-! ## The reset event -/

/-- Settles O58: in BUSY the invariant makes the latched format a supported one, so the run has a value for every byte
of its image, and the free choice is between that value and the one from before the run. -/
theorem resetEventAtAnyTime : Obligations.ResetEventAtAnyTime := by
  intro s hi
  refine ⟨hostReset s, rfl, rfl, rfl, fun hb => if_neg hb,
    fun hb => ⟨fun a ha => ?_, fun a ha => read_hostReset_beyond_image s a hb ha⟩⟩
  obtain ⟨⟨hsize, _⟩, _⟩ := inProgress_of_inv s hi hb
  obtain ⟨⟨_, hwf, _⟩, _⟩ := hi
  obtain ⟨v, hv⟩ := imageByte_isSome s.inMem s.run.f s.run.w a s.run.bsz hsize
  rw [read_hostReset_image s a hwf hb ha, hv, Option.some.injEq]
  exact eitherByte_busy s _ a v hb hv

end Sys2Proof.Proofs
end

section
/-! PROOFS. What every step keeps: the invariant after reset (O48) and over a step (O49), and the partial image over a
step of any agent (O50). Both are taken case by case of what a step can do (`step_case`); what the two predicates read of
the state is said once, by a lemma that carries each over to a state that agrees there. -/

namespace Sys2Proof.Proofs

open Sys2Proof.Machine Sys2Proof.Laws

/-! ## What the predicates read of the state -/

/-- `statusSound` reads `STATUS`, `ERR`, the run and, in BUSY, whether the platform admits it. -/
theorem statusSound_of_agree (s t : State) (h : statusSound s) (hstatus : t.regs.status = s.regs.status)
    (herr : t.regs.err = s.regs.err) (hrun : t.run = s.run)
    (hfit : s.regs.status = .busy →
      t.host.fitRun s.run.w s.run.h s.run.l = s.host.fitRun s.run.w s.run.h s.run.l) : statusSound t := by
  unfold statusSound at h ⊢
  rw [hstatus, herr, hrun]
  cases hs : s.regs.status with
  | idle => simpa only [hs] using h
  | busy => simpa only [hs, hfit hs] using h
  | done => simpa only [hs] using h
  | error => simpa only [hs] using h

/-- Whether the platform admits a run depends on the buffers and the registers' place only. -/
theorem fitRun_of_agree (x y : HostSide) (w h l : Word) (hbufs : y.bufs = x.bufs) (hregs : y.regFile = x.regFile) :
    y.fitRun w h l = x.fitRun w h l := by
  unfold HostSide.fitRun
  rw [hbufs, hregs]

/-- The invariant does not read the agenda or the lane. -/
theorem inv_withAgenda (s : State) (a : List Event) (h : s.Inv) : (s.withAgenda a).Inv :=
  ⟨h.1, statusSound_of_agree s _ h.2 rfl rfl rfl fun _ => rfl⟩

/-- The partial image reads `STATUS`, the run, `OUT` from before the run, and of `OUT` and the image the image's bytes. -/
theorem partialImage_of_agree (s t : State) (h : PartialImage s) (hstatus : t.regs.status = s.regs.status)
    (hrun : t.run = s.run) (hbefore : t.host.outBefore = s.host.outBefore)
    (hbytes : s.regs.status = .busy → ∀ a, a < imageBytes s.run.w s.run.h →
      Memory.read t.outMem a = Memory.read s.outMem a ∧
        imageByte t.inMem s.run.f s.run.w a = imageByte s.inMem s.run.f s.run.w a) : PartialImage t := by
  intro hb a ha
  rw [hstatus] at hb
  rw [hrun] at ha ⊢
  obtain ⟨hout, himage⟩ := hbytes hb a ha
  rw [hout, himage, hbefore]
  exact h hb a ha

/-- The partial image does not read the agenda. -/
theorem partialImage_withAgenda (s : State) (a : List Event) (h : PartialImage s) : PartialImage (s.withAgenda a) :=
  h

/-- Outside BUSY there is no partial image to keep. -/
theorem partialImage_of_not_busy (s : State) (hn : s.regs.status ≠ .busy) : PartialImage s :=
  fun hb => absurd hb hn

/-! ## The invariant, by what a step did -/

/-- Settles O48: after reset no byte is listed, `STATUS` is IDLE and `ERR` is clear. -/
theorem resetMeetsTheInvariant : Obligations.ResetMeetsTheInvariant :=
  ⟨⟨⟨rfl, rfl, rfl⟩, rfl⟩, partialImage_of_not_busy State.reset nofun⟩

/-- A block step of a run in progress keeps the invariant: the run goes on, or is completed. -/
theorem inv_afterBlock (texel : Nat → RGBA) (s : State) (hi : s.Inv) (hb : s.regs.status = .busy) :
    (afterBlock texel s).Inv := by
  obtain ⟨⟨hin, hout, hbefore⟩, hs⟩ := hi
  refine ⟨⟨hin, wf_storeTile _ _ _ _ _ _ hout, hbefore⟩, ?_⟩
  simp only [statusSound, hb] at hs
  obtain ⟨herr, hp, hfit⟩ := hs
  rcases advance_inProgress_or_completed s.run hp with hp' | hc
  · have hstatus : (afterBlock texel s).regs.status = .busy := statusAfter_inProgress _ hp'
    simp only [statusSound, hstatus]
    refine ⟨herr, hp', ?_⟩
    simpa only [afterBlock, advance_w, advance_h, advance_l] using hfit
  · have hstatus : (afterBlock texel s).regs.status = .done := statusAfter_completed _ hc
    simp only [statusSound, hstatus]
    exact ⟨herr, hc⟩

/-- START keeps the invariant: an error is in `ERR`, and a run that begins is in progress in buffers that hold it. -/
theorem inv_execStart (s t : State) (hi : s.Inv) (h : execStart s = .next t) : t.Inv := by
  rcases execStart_next s t h with ⟨_, rfl⟩ | ⟨_, e, _, rfl⟩ | ⟨_, b, hv, hfit, rfl⟩
  · exact hi
  · exact ⟨hi.1, Option.some_ne_none e⟩
  · obtain ⟨⟨hin, hout, _⟩, _⟩ := hi
    exact ⟨⟨hin, hout, hout⟩, rfl, inProgress_beginRun (latch s) b hv, hfit⟩

/-- The reset event keeps the byte spaces canonical, an abandoned image included. -/
theorem wf_hostReset_outMem (s : State) (h : Memory.wf s.outMem = true) : Memory.wf (hostReset s).outMem = true := by
  rw [hostReset_outMem]
  split
  · rw [abandonedOut_eq]
    exact wf_writeFirst _ _ _ h
  · exact h

/-- Every access of the host, and the reset event, keeps the invariant. -/
theorem inv_hostStep (c : HostCmd) (s t : State) (hi : s.Inv) (h : hostStep c s = .next t) : t.Inv := by
  obtain ⟨⟨hin, hout, hbefore⟩, hs⟩ := hi
  rcases hostStep_next c s t h with
    ⟨r, rfl, hstatus, herr⟩ | ⟨a, b, rfl, _⟩ | ⟨a, b, rfl, _⟩ | ⟨x, rfl, _, hold, hbufs, hregs⟩ | ⟨_, rfl⟩
  · exact ⟨⟨hin, hout, hbefore⟩, statusSound_of_agree s _ hs hstatus herr rfl fun _ => rfl⟩
  · exact ⟨⟨wf_write _ a b hin, hout, hbefore⟩, statusSound_of_agree s _ hs rfl rfl rfl fun _ => rfl⟩
  · exact ⟨⟨hin, wf_write _ a b hout, hbefore⟩, statusSound_of_agree s _ hs rfl rfl rfl fun _ => rfl⟩
  · refine ⟨⟨hin, hout, by rwa [hold]⟩, statusSound_of_agree s _ hs rfl rfl rfl fun hb => ?_⟩
    exact fitRun_of_agree _ _ _ _ _ (hbufs.resolve_right fun hn => hn hb) hregs
  · exact ⟨⟨hin, wf_hostReset_outMem s hout, hbefore⟩, rfl⟩

/-- Settles O49: by what the step did. -/
theorem everyStepKeepsTheInvariant : Obligations.EveryStepKeepsTheInvariant := by
  intro s t hi h
  cases step_case s t h with
  | block texel a hb _ _ ht => exact ht ▸ inv_afterBlock texel _ (inv_withAgenda s a hi) hb
  | start _ ht => exact inv_execStart _ t (inv_withAgenda s _ hi) ht
  | lane l a ht => exact ht ▸ inv_withAgenda s a hi
  | access c _ _ ht => exact inv_hostStep c _ t (inv_withAgenda s _ hi) ht
  | nothing a ht => exact ht ▸ inv_withAgenda s a hi

/-! ## The records of the image lie below `REQ` -/

/-- The record of the block that a byte of the image belongs to lies below `REQ` (spec/44_image_decode.md R187). -/
theorem record_end_le_req (r : Run) (hl : r.latched) (a : Nat) (ha : a < imageBytes r.w r.h) :
    blockOfByte r a * r.bsz + r.bsz ≤ r.req := by
  calc blockOfByte r a * r.bsz + r.bsz = (blockOfByte r a + 1) * r.bsz := (Nat.succ_mul _ _).symm
    _ ≤ r.req := Nat.mul_le_mul_right _ (blockOfByte_lt r hl a ha)

/-- A write beyond the bytes that are fetched does not change them. -/
theorem memRead_write_beyond (m : Memory) (a n k : Nat) (v : Byte) (h : a + n ≤ k) :
    memRead (Memory.write m k v) a n = memRead m a n := by
  unfold memRead fetchBytes
  congr 1
  refine List.map_congr_left fun j hj => read_write_other _ _ _ _ ?_
  have := List.mem_range.mp hj
  omega

/-- A write of `IN` at or beyond `REQ` does not change the image (spec/20_memory.md R56). -/
theorem imageByte_write_beyond_req (m : Memory) (r : Run) (hl : r.latched) (k : Nat) (v : Byte) (hk : r.req ≤ k)
    (a : Nat) (ha : a < imageBytes r.w r.h) :
    imageByte (Memory.write m k v) r.f r.w a = imageByte m r.f r.w a := by
  have hend := record_end_le_req r hl a ha
  obtain ⟨hf, _, _, hnbx, _⟩ := hl
  unfold blockOfByte at hend
  unfold imageByte imagePixel
  rw [hf, ← hnbx]
  simp only [memRead_write_beyond m _ _ k v (hend.trans hk)]

/-! ## The partial image, by what a step did -/

/-- A START keeps the partial image: of a run that begins no block is decoded, and `OUT` is as before it. -/
theorem partialImage_execStart (s t : State) (hp : PartialImage s) (h : execStart s = .next t) : PartialImage t := by
  rcases execStart_next s t h with ⟨_, rfl⟩ | ⟨_, e, _, rfl⟩ | ⟨_, b, _, _, rfl⟩
  · exact hp
  · exact partialImage_of_not_busy (raise e (latch s)) nofun
  · intro _ a _
    simp [Run.blocksDone]

/-- Every access of the host keeps the partial image: in BUSY it writes no byte that the run owns; the reset event ends
the run. -/
theorem partialImage_hostStep (c : HostCmd) (s t : State) (hi : s.Inv) (hp : PartialImage s)
    (h : hostStep c s = .next t) : PartialImage t := by
  rcases hostStep_next c s t h with
    ⟨r, rfl, hstatus, _⟩ | ⟨k, v, rfl, hfree⟩ | ⟨k, v, rfl, hfree⟩ | ⟨x, rfl, _, hold, _⟩ | ⟨_, rfl⟩
  · exact partialImage_of_agree s _ hp hstatus rfl rfl fun _ _ _ => ⟨rfl, rfl⟩
  · refine partialImage_of_agree s _ hp rfl rfl rfl fun hb a ha => ⟨rfl, ?_⟩
    obtain ⟨hl, _⟩ := inProgress_of_inv s hi hb
    exact imageByte_write_beyond_req _ _ hl k v (Nat.le_of_not_lt fun hk => hfree ⟨hb, hk⟩) a ha
  · refine partialImage_of_agree s _ hp rfl rfl rfl fun hb a ha => ⟨read_write_other _ _ _ _ ?_, rfl⟩
    rintro rfl
    exact Bool.false_ne_true (hfree.symm.trans ((outOwned_iff s a).mpr ⟨Or.inl hb, ha⟩))
  · exact partialImage_of_agree s _ hp rfl rfl hold fun _ _ _ => ⟨rfl, rfl⟩
  · exact partialImage_of_not_busy (hostReset s) nofun

/-- A block step keeps the partial image: it adds the block at the cursor. -/
theorem partialImage_afterBlock (texel : Nat → RGBA) (s : State) (hi : s.Inv) (hp : PartialImage s)
    (hb : s.regs.status = .busy) (ht : s.run.f.size? = some s.run.bsz → TexelsAtCursor texel s) :
    PartialImage (afterBlock texel s) := by
  have hprogress := inProgress_of_inv s hi hb
  have ⟨⟨hf, _⟩, _⟩ := hprogress
  obtain ⟨⟨_, hwf, _⟩, _⟩ := hi
  exact fun _ => decodedUpTo_afterBlock s.host.outBefore s texel hprogress hwf (ht hf) (hp hb)

/-- Settles O50: by what the step did. -/
theorem everyStepKeepsThePartialImage : Obligations.EveryStepKeepsThePartialImage := by
  intro s t hi hp h
  cases step_case s t h with
  | block texel a hb _ htexel ht => exact ht ▸ partialImage_afterBlock texel (s.withAgenda a) hi hp hb htexel
  | start _ ht => exact partialImage_execStart _ t (partialImage_withAgenda s _ hp) ht
  | lane l a ht => exact ht ▸ partialImage_withAgenda s a hp
  | access c _ _ ht =>
    exact partialImage_hostStep c _ t (inv_withAgenda s _ hi) (partialImage_withAgenda s _ hp) ht
  | nothing a ht => exact ht ▸ partialImage_withAgenda s a hp

end Sys2Proof.Proofs
end

section
/-! PROOFS. The decoder and the encoder (spec/30_encoding.md): each gives back what the other was given (O1, O2), words of
the spec (O3), the fields and codes of a BC3 record (O7) and the list forms (O8). Both directions rest on the same facts:
bytes and their little-endian value determine each other, a record's value and its fields do, and of each table of
selector codes, which contexts select it. -/

namespace Sys2Proof.Proofs

open Sys2Proof.Machine Sys2Proof.Laws

/-! ## Bytes and their little-endian value -/

/-- The value of the `n` bytes of a number is the number cut to `n` bytes. -/
theorem leNat_leBytes (n v : Nat) : leNat (leBytes n v) = v % 256 ^ n := by
  induction n generalizing v with
  | zero => rw [Nat.pow_zero, Nat.mod_one]; rfl
  | succ n ih =>
    have hsplit : v % 256 ^ (n + 1) = v % 256 + 256 * (v / 256 % 256 ^ n) := by rw [Nat.pow_succ', Nat.mod_mul]
    rw [leBytes, leNat, ih, BitVec.toNat_ofNat, hsplit]

/-- Bytes are the bytes of their value. -/
theorem leBytes_leNat (bs : List Byte) : leBytes bs.length (leNat bs) = bs := by
  induction bs with
  | nil => rfl
  | cons b bs ih =>
    have hlow : BitVec.ofNat 8 (b.toNat + 256 * leNat bs) = b := BitVec.eq_of_toNat_eq (by simp; omega)
    have hhigh : (b.toNat + 256 * leNat bs) / 256 = leNat bs := by omega
    rw [leNat, List.length_cons, leBytes, hlow, hhigh, ih]

/-- The value of `n` bytes is one of `n` bytes. -/
theorem leNat_lt (bs : List Byte) : leNat bs < 256 ^ bs.length := by
  have hmod := leNat_leBytes bs.length (leNat bs)
  rw [leBytes_leNat] at hmod
  exact hmod ▸ Nat.mod_lt _ (by positivity)

/-! ## Decoding, by the value -/

/-- What the decoder answers: the operation of its context's first bytes, and the bytes after them. -/
theorem decode_eq_ok_iff (c : Ctx) (bs rest : List Byte) (i : Instr) :
    decode c bs = .ok (i, rest) ↔
      c.size ≤ bs.length ∧ decodeValue c (leNat (bs.take c.size)) = .ok i ∧ bs.drop c.size = rest := by
  unfold decode
  by_cases hlen : bs.length < c.size
  · simp [hlen]
  · cases hv : decodeValue c (leNat (bs.take c.size)) <;> simp [hlen, Nat.le_of_not_lt hlen]

/-- The bytes of a value that fits its context decode to the value's operation. -/
theorem decode_leBytes (c : Ctx) (v : Nat) (i : Instr) (hv : v < 256 ^ c.size) (hi : decodeValue c v = .ok i) :
    decode c (leBytes c.size v) = .ok (i, []) := by
  rw [decode_eq_ok_iff, List.take_of_length_le (by simp), leNat_leBytes, Nat.mod_eq_of_lt hv]
  exact ⟨by simp, hi, by simp⟩

/-! ## Records -/

/-- A field as a number. -/
theorem toNat_bitField (v lo n : Nat) : (bitField v lo n).toNat = v / 2 ^ lo % 2 ^ n := by
  rw [bitField, BitVec.toNat_ofNat, Nat.shiftRight_eq_div_pow]

/-- A field is the value of its bits. -/
theorem bitField_eq (v lo n : Nat) (x : BitVec n) (h : v / 2 ^ lo % 2 ^ n = x.toNat) : bitField v lo n = x :=
  BitVec.eq_of_toNat_eq ((toNat_bitField v lo n).trans h)

/-- A colour sub-block fills 64 bits (spec/30_encoding.md R71). -/
theorem colourValue_lt (c0 c1 : Colour565) (idx : BitVec 32) : colourValue c0 c1 idx < 2 ^ 64 := by
  unfold colourValue
  omega

/-- The fields of a BC1 record's value are the fields it was made of (spec/30_encoding.md R72). -/
theorem decodeBC1_colourValue (c0 c1 : Colour565) (idx : BitVec 32) :
    decodeBC1 (colourValue c0 c1 idx) = .blkBC1 c0 c1 idx := by
  unfold decodeBC1 colourValue
  congr 1 <;> apply bitField_eq <;> omega

/-- The fields of a BC2 record's value are the fields it was made of (spec/30_encoding.md R73). -/
theorem decodeBC2_value (aexp : BitVec 64) (c0 c1 : Colour565) (idx : BitVec 32) :
    decodeBC2 (aexp.toNat + colourValue c0 c1 idx * 2 ^ 64) = .blkBC2 aexp c0 c1 idx := by
  unfold decodeBC2 colourValue
  congr 1 <;> apply bitField_eq <;> omega

/-- The fields of a BC3 record's value are the fields it was made of (spec/30_encoding.md R74). -/
theorem decodeBC3_value (a0 a1 : Byte) (aidx : BitVec 48) (c0 c1 : Colour565) (idx : BitVec 32) :
    decodeBC3 (a0.toNat + a1.toNat * 2 ^ 8 + aidx.toNat * 2 ^ 16 + colourValue c0 c1 idx * 2 ^ 64) =
      .blkBC3 a0 a1 aidx c0 c1 idx := by
  unfold decodeBC3 colourValue
  congr 1 <;> apply bitField_eq <;> omega

/-- A record's value is put together again from its fields (spec/30_encoding.md R72 to R74). -/
theorem encode_decodeBC1 (v : Nat) (hv : v < 256 ^ 8) : encode (decodeBC1 v) = leBytes 8 v := by
  simp only [decodeBC1, encode, colourValue, toNat_bitField]
  congr 1
  omega

theorem encode_decodeBC2 (v : Nat) (hv : v < 256 ^ 16) : encode (decodeBC2 v) = leBytes 16 v := by
  simp only [decodeBC2, encode, colourValue, toNat_bitField]
  congr 1
  omega

theorem encode_decodeBC3 (v : Nat) (hv : v < 256 ^ 16) : encode (decodeBC3 v) = leBytes 16 v := by
  simp only [decodeBC3, encode, colourValue, toNat_bitField]
  congr 1
  omega

/-- A value that decodes as a record is one of a record that its format selects, and the record's encoding is the
value's bytes. -/
theorem encode_of_decodeRecord (f : Format) (v : Nat) (i : Instr) (h : decodeRecord f v = .ok i)
    (hv : v < 256 ^ (Ctx.record f).size) :
    i.wellFormedIn (.record f) = true ∧ encode i = leBytes (Ctx.record f).size v := by
  cases f with
  | bc1 => cases h; exact ⟨rfl, encode_decodeBC1 v hv⟩
  | bc2 => cases h; exact ⟨rfl, encode_decodeBC2 v hv⟩
  | bc3 => cases h; exact ⟨rfl, encode_decodeBC3 v hv⟩
  | other n => cases h

/-! ## Selector codes -/

/-- `i` is encoded as the code `k`, alone in one byte, and is selected where the entry `first` is: what decoding and
encoding need of an entry of the table that begins with `first` (spec/30_encoding.md R76 to R79). -/
structure IsEntry (first : Instr) (k : Nat) (i : Instr) : Prop where
  fits : k < 256
  encode_eq : encode i = leBytes 1 k
  selected : ∀ c, i.wellFormedIn c = first.wellFormedIn c

theorem isEntry_of_csel4Of (k : Nat) (i : Instr) (h : csel4Of k = some i) : IsEntry .csel4_0 k i := by
  unfold csel4Of at h
  split at h <;> cases h <;> exact ⟨by decide, rfl, fun _ => rfl⟩

theorem isEntry_of_csel3Of (k : Nat) (i : Instr) (h : csel3Of k = some i) : IsEntry .csel3_0 k i := by
  unfold csel3Of at h
  split at h <;> cases h <;> exact ⟨by decide, rfl, fun _ => rfl⟩

theorem isEntry_of_agrad6Of (k : Nat) (i : Instr) (h : agrad6Of k = some i) : IsEntry .agrad6_0 k i := by
  unfold agrad6Of at h
  split at h <;> cases h <;> exact ⟨by decide, rfl, fun _ => rfl⟩

theorem isEntry_of_agrad4Of (k : Nat) (i : Instr) (h : agrad4Of k = some i) : IsEntry .agrad4_0 k i := by
  unfold agrad4Of at h
  split at h <;> cases h <;> exact ⟨by decide, rfl, fun _ => rfl⟩

theorem isEntry_aexp (n : BitVec 4) : IsEntry (.aexp 0) n.toNat (.aexp n) :=
  ⟨by omega, rfl, fun _ => rfl⟩

/-- A colour code decodes by the table whose entries its context selects (spec/30_encoding.md R79). -/
theorem decodeColour_eq_ok_iff (f : Format) (four : Bool) (k : Nat) (i : Instr) :
    decodeColour f four k = .ok i ↔
      (csel4Of k = some i ∧ Instr.csel4_0.wellFormedIn (.colour f four) = true) ∨
      (csel3Of k = some i ∧ Instr.csel3_0.wellFormedIn (.colour f four) = true) := by
  cases f with
  | bc1 =>
    cases four
    · cases h3 : csel3Of k <;> simp [decodeColour, Instr.wellFormedIn, h3]
    · cases h4 : csel4Of k <;> simp [decodeColour, Instr.wellFormedIn, h4]
  | bc2 => cases h4 : csel4Of k <;> simp [decodeColour, Instr.wellFormedIn, h4]
  | bc3 => cases h4 : csel4Of k <;> simp [decodeColour, Instr.wellFormedIn, h4]
  | other n => simp [decodeColour, Instr.wellFormedIn]

/-- An alpha code decodes by the table whose entries its context selects, a nibble to `AEXP`
(spec/30_encoding.md R79). -/
theorem decodeAlpha_eq_ok_iff (f : Format) (six : Bool) (k : Nat) (i : Instr) :
    decodeAlpha f six k = .ok i ↔
      (agrad6Of k = some i ∧ Instr.agrad6_0.wellFormedIn (.alpha f six) = true) ∨
      (agrad4Of k = some i ∧ Instr.agrad4_0.wellFormedIn (.alpha f six) = true) ∨
      ((∃ n : BitVec 4, n.toNat = k ∧ .aexp n = i) ∧ (Instr.aexp 0).wellFormedIn (.alpha f six) = true) := by
  cases f with
  | bc1 => simp [decodeAlpha, Instr.wellFormedIn]
  | bc2 =>
    have hnibble : (∃ n : BitVec 4, n.toNat = k ∧ Instr.aexp n = i) ↔ k < 16 ∧ .aexp (BitVec.ofNat 4 k) = i := by
      constructor
      · rintro ⟨n, rfl, rfl⟩
        exact ⟨n.isLt, by rw [BitVec.ofNat_toNat, BitVec.setWidth_eq]⟩
      · rintro ⟨hk, rfl⟩
        exact ⟨BitVec.ofNat 4 k, Nat.mod_eq_of_lt hk, rfl⟩
    rw [hnibble]
    by_cases hk : k < 16 <;> simp [decodeAlpha, Instr.wellFormedIn, hk]
  | bc3 =>
    cases six
    · cases h4 : agrad4Of k <;> simp [decodeAlpha, Instr.wellFormedIn, h4]
    · cases h6 : agrad6Of k <;> simp [decodeAlpha, Instr.wellFormedIn, h6]
  | other n => simp [decodeAlpha, Instr.wellFormedIn]

/-- The byte of an entry decodes to the entry where its code does. -/
theorem decode_encode_of_isEntry {first : Instr} {c : Ctx} {k : Nat} {i : Instr} (he : IsEntry first k i)
    (hsize : c.size = 1) (hv : decodeValue c k = .ok i) : decode c (encode i) = .ok (i, []) := by
  rw [he.encode_eq, ← hsize]
  exact decode_leBytes c k i (by rw [hsize]; exact he.fits) hv

/-- The byte of an entry of a table decodes to the entry in every context that selects it. -/
theorem decode_encode_csel4 (c : Ctx) (k : Nat) (i : Instr) (hk : csel4Of k = some i)
    (h : i.wellFormedIn c = true) : decode c (encode i) = .ok (i, []) := by
  have he := isEntry_of_csel4Of k i hk
  rw [he.selected] at h
  cases c with
  | colour f four => exact decode_encode_of_isEntry he rfl ((decodeColour_eq_ok_iff f four k i).mpr (Or.inl ⟨hk, h⟩))
  | _ => cases h

theorem decode_encode_csel3 (c : Ctx) (k : Nat) (i : Instr) (hk : csel3Of k = some i)
    (h : i.wellFormedIn c = true) : decode c (encode i) = .ok (i, []) := by
  have he := isEntry_of_csel3Of k i hk
  rw [he.selected] at h
  cases c with
  | colour f four => exact decode_encode_of_isEntry he rfl ((decodeColour_eq_ok_iff f four k i).mpr (Or.inr ⟨hk, h⟩))
  | _ => cases h

theorem decode_encode_agrad6 (c : Ctx) (k : Nat) (i : Instr) (hk : agrad6Of k = some i)
    (h : i.wellFormedIn c = true) : decode c (encode i) = .ok (i, []) := by
  have he := isEntry_of_agrad6Of k i hk
  rw [he.selected] at h
  cases c with
  | alpha f six => exact decode_encode_of_isEntry he rfl ((decodeAlpha_eq_ok_iff f six k i).mpr (Or.inl ⟨hk, h⟩))
  | _ => cases h

theorem decode_encode_agrad4 (c : Ctx) (k : Nat) (i : Instr) (hk : agrad4Of k = some i)
    (h : i.wellFormedIn c = true) : decode c (encode i) = .ok (i, []) := by
  have he := isEntry_of_agrad4Of k i hk
  rw [he.selected] at h
  cases c with
  | alpha f six => exact decode_encode_of_isEntry he rfl ((decodeAlpha_eq_ok_iff f six k i).mpr (Or.inr (Or.inl ⟨hk, h⟩)))
  | _ => cases h

theorem decode_encode_aexp (c : Ctx) (n : BitVec 4) (h : (Instr.aexp n).wellFormedIn c = true) :
    decode c (encode (.aexp n)) = .ok (.aexp n, []) := by
  cases c with
  | alpha f six =>
    exact decode_encode_of_isEntry (isEntry_aexp n) rfl
      ((decodeAlpha_eq_ok_iff f six _ _).mpr (Or.inr (Or.inr ⟨⟨n, rfl, rfl⟩, h⟩)))
  | _ => cases h

/-- An entry that is decoded from a table is selected by its context and encoded as its code. -/
theorem encodes_of_isEntry {first : Instr} {c : Ctx} {k : Nat} {i : Instr} (he : IsEntry first k i)
    (hc : first.wellFormedIn c = true) : i.wellFormedIn c = true ∧ encode i = leBytes 1 k :=
  ⟨(he.selected c).trans hc, he.encode_eq⟩

/-! ## Decoding and encoding are inverse -/

/-- The encoding of an instruction decodes to it in every context that selects it: by the kind of the instruction. -/
theorem decode_encode (c : Ctx) (i : Instr) (h : i.wellFormedIn c = true) : decode c (encode i) = .ok (i, []) := by
  cases i with
  | start =>
    obtain rfl : c = .ctrl := of_decide_eq_true h
    exact decode_leBytes .ctrl 1 _ (by decide) rfl
  | blkBC1 c0 c1 idx =>
    obtain rfl : c = .record .bc1 := of_decide_eq_true h
    exact decode_leBytes (.record .bc1) _ _ (colourValue_lt c0 c1 idx)
      (congrArg Except.ok (decodeBC1_colourValue c0 c1 idx))
  | blkBC2 aexp c0 c1 idx =>
    obtain rfl : c = .record .bc2 := of_decide_eq_true h
    have hcolour := colourValue_lt c0 c1 idx
    exact decode_leBytes (.record .bc2) _ _ (by simp only [Ctx.size, Format.size?, Option.getD_some]; omega)
      (congrArg Except.ok (decodeBC2_value aexp c0 c1 idx))
  | blkBC3 a0 a1 aidx c0 c1 idx =>
    obtain rfl : c = .record .bc3 := of_decide_eq_true h
    have hcolour := colourValue_lt c0 c1 idx
    exact decode_leBytes (.record .bc3) _ _ (by simp only [Ctx.size, Format.size?, Option.getD_some]; omega)
      (congrArg Except.ok (decodeBC3_value a0 a1 aidx c0 c1 idx))
  | csel4_0 => exact decode_encode_csel4 c 0 _ rfl h
  | csel4_1 => exact decode_encode_csel4 c 1 _ rfl h
  | csel4_2 => exact decode_encode_csel4 c 2 _ rfl h
  | csel4_3 => exact decode_encode_csel4 c 3 _ rfl h
  | csel3_0 => exact decode_encode_csel3 c 0 _ rfl h
  | csel3_1 => exact decode_encode_csel3 c 1 _ rfl h
  | csel3_2 => exact decode_encode_csel3 c 2 _ rfl h
  | csel3_3 => exact decode_encode_csel3 c 3 _ rfl h
  | aexp n => exact decode_encode_aexp c n h
  | agrad6_0 => exact decode_encode_agrad6 c 0 _ rfl h
  | agrad6_1 => exact decode_encode_agrad6 c 1 _ rfl h
  | agrad6_2 => exact decode_encode_agrad6 c 2 _ rfl h
  | agrad6_3 => exact decode_encode_agrad6 c 3 _ rfl h
  | agrad6_4 => exact decode_encode_agrad6 c 4 _ rfl h
  | agrad6_5 => exact decode_encode_agrad6 c 5 _ rfl h
  | agrad6_6 => exact decode_encode_agrad6 c 6 _ rfl h
  | agrad6_7 => exact decode_encode_agrad6 c 7 _ rfl h
  | agrad4_0 => exact decode_encode_agrad4 c 0 _ rfl h
  | agrad4_1 => exact decode_encode_agrad4 c 1 _ rfl h
  | agrad4_2 => exact decode_encode_agrad4 c 2 _ rfl h
  | agrad4_3 => exact decode_encode_agrad4 c 3 _ rfl h
  | agrad4_4 => exact decode_encode_agrad4 c 4 _ rfl h
  | agrad4_5 => exact decode_encode_agrad4 c 5 _ rfl h
  | agrad4_6 => exact decode_encode_agrad4 c 6 _ rfl h
  | agrad4_7 => exact decode_encode_agrad4 c 7 _ rfl h

/-- Settles O1: the encoding decodes alone, and so with any bytes behind it. -/
theorem decodeOfEncodeGivesTheInstruction : Obligations.DecodeOfEncodeGivesTheInstruction :=
  fun c i rest h => decode_append c _ [] rest i (decode_encode c i h)

/-- What a value decodes to outside `CTRL` is selected by the context, and encoded as the value's bytes. -/
theorem encode_of_decodeValue (c : Ctx) (v : Nat) (i : Instr) (hc : c ≠ .ctrl) (hv : v < 256 ^ c.size)
    (h : decodeValue c v = .ok i) : i.wellFormedIn c = true ∧ encode i = leBytes c.size v := by
  cases c with
  | ctrl => exact absurd rfl hc
  | record f => exact encode_of_decodeRecord f v i h hv
  | colour f four =>
    rcases (decodeColour_eq_ok_iff f four v i).mp h with ⟨hk, hsel⟩ | ⟨hk, hsel⟩
    · exact encodes_of_isEntry (isEntry_of_csel4Of v i hk) hsel
    · exact encodes_of_isEntry (isEntry_of_csel3Of v i hk) hsel
  | alpha f six =>
    rcases (decodeAlpha_eq_ok_iff f six v i).mp h with ⟨hk, hsel⟩ | ⟨hk, hsel⟩ | ⟨⟨n, rfl, rfl⟩, hsel⟩
    · exact encodes_of_isEntry (isEntry_of_agrad6Of v i hk) hsel
    · exact encodes_of_isEntry (isEntry_of_agrad4Of v i hk) hsel
    · exact encodes_of_isEntry (isEntry_aexp n) hsel

/-- Settles O2: the bytes taken are the bytes of their value. -/
theorem encodeOfDecodeGivesTheBytes : Obligations.EncodeOfDecodeGivesTheBytes := by
  intro c bs i rest hc h
  obtain ⟨hlen, hv, rfl⟩ := (decode_eq_ok_iff c bs rest i).mp h
  have htaken : (bs.take c.size).length = c.size := List.length_take_of_le hlen
  have hlt := leNat_lt (bs.take c.size)
  have hbytes := leBytes_leNat (bs.take c.size)
  rw [htaken] at hlt hbytes
  obtain ⟨hwf, he⟩ := encode_of_decodeValue c _ i hc hlt hv
  exact ⟨hwf, by rw [he, hbytes, List.take_append_drop]⟩

/-- Settles O3: the decoder, run on each of the words. -/
theorem wordsOfTheSpecDecode : Obligations.WordsOfTheSpecDecode :=
  ⟨rfl, rfl, rfl, rfl, rfl, rfl, rfl, rfl, rfl⟩

/-! ## The codes of a record -/

/-- A texel's alpha code is three bits of the slice that holds the codes (spec/30_encoding.md R78). -/
theorem isSlice_alphaCode {bs : List Byte} {lo : Nat} {aidx : BitVec 48} (h : isSlice bs lo 48 aidx) (i : Nat)
    (hi : i < 16) : isSlice bs (lo + 3 * i) 3 (alphaCode aidx i) :=
  isSlice_bitField_of_isSlice h (3 * i) 3 (by omega)

/-- Settles O7: each field is a slice of the record, each alpha code a slice of `AIDX` and each colour code one of
`IDX`. -/
theorem bc3RecordFields : Obligations.BC3RecordFields := by
  intro bs hlen
  have hdecode := decode_record_of_decodeRecord .bc3 bs (decodeBC3 (leNat bs)) (congrArg some hlen.symm) rfl
  have haidx := isSlice_bitField bs 16 48
  have hidx := isSlice_bitField bs 96 32
  exact ⟨_, _, _, _, _, _, hdecode, isSlice_bitField bs 0 8, isSlice_bitField bs 8 8, haidx, isSlice_bitField bs 64 16,
    isSlice_bitField bs 80 16, hidx, fun i hi => ⟨isSlice_alphaCode haidx i hi, isSlice_colourCode hidx i hi⟩⟩

/-- Packed codes fill `width` bits each (spec/30_encoding.md R84). -/
theorem packCodes_lt (width : Nat) (ks : List Nat) (hks : ∀ k ∈ ks, k < 2 ^ width) :
    packCodes width ks < 2 ^ (width * ks.length) := by
  induction ks with
  | nil => exact Nat.one_pos
  | cons k rest ih =>
    have hk := hks k List.mem_cons_self
    have hrest := ih fun j hj => hks j (List.mem_cons_of_mem k hj)
    calc k + 2 ^ width * packCodes width rest < 2 ^ width * (packCodes width rest + 1) := by
          rw [Nat.mul_add, Nat.mul_one, Nat.add_comm]
          exact Nat.add_lt_add_left hk _
      _ ≤ 2 ^ width * 2 ^ (width * rest.length) := Nat.mul_le_mul_left _ hrest
      _ = 2 ^ (width * (rest.length + 1)) := by rw [Nat.mul_add, Nat.mul_one, Nat.pow_add, Nat.mul_comm]

/-- Element `i` of a list form is the field of `width` bits at bit `width * i` (spec/30_encoding.md R84). -/
theorem packCodes_field (width : Nat) (ks : List Nat) (hks : ∀ k ∈ ks, k < 2 ^ width) (i : Nat) :
    packCodes width ks / 2 ^ (width * i) % 2 ^ width = ks.getD i 0 := by
  induction ks generalizing i with
  | nil => simp [packCodes]
  | cons k rest ih =>
    have hk := hks k List.mem_cons_self
    cases i with
    | zero => simp [packCodes, Nat.mod_eq_of_lt hk]
    | succ i =>
      have hdrop : (k + 2 ^ width * packCodes width rest) / 2 ^ width = packCodes width rest := by
        rw [Nat.add_mul_div_left _ _ (Nat.two_pow_pos width), Nat.div_eq_of_lt hk, Nat.zero_add]
      rw [packCodes, Nat.mul_add, Nat.mul_one, Nat.add_comm (width * i), Nat.pow_add, ← Nat.div_div_eq_div_mul, hdrop,
        List.getD_cons_succ]
      exact ih (fun j hj => hks j (List.mem_cons_of_mem k hj)) i

/-- What the decoder reads of a field packed from sixteen codes is the code (spec/30_encoding.md R84). -/
theorem toNat_bitField_packCodes (width n : Nat) (ks : List Nat) (hlen : ks.length = 16)
    (hks : ∀ k ∈ ks, k < 2 ^ width) (hn : n = width * 16) (i : Nat) :
    (bitField (BitVec.ofNat n (packCodes width ks)).toNat (width * i) width).toNat = ks.getD i 0 := by
  have hfits : packCodes width ks < 2 ^ n := hn ▸ hlen ▸ packCodes_lt width ks hks
  rw [toNat_bitField, BitVec.toNat_ofNat, Nat.mod_eq_of_lt hfits, packCodes_field width ks hks]

/-- Settles O8: the decoder reads texel `i`'s code where the list form puts element `i`. -/
theorem listFormsPackTheCodes : Obligations.ListFormsPackTheCodes := by
  intro width ks hlen hks i _
  refine ⟨?two, ?three, ?four⟩
  case two => rintro rfl; exact toNat_bitField_packCodes 2 32 ks hlen hks rfl i
  case three => rintro rfl; exact toNat_bitField_packCodes 3 48 ks hlen hks rfl i
  case four => rintro rfl; exact toNat_bitField_packCodes 4 64 ks hlen hks rfl i

end Sys2Proof.Proofs
end

section
/-! PROOFS. The selector codes of a lane: what the colour codes compute (O17, O18) and from which fields of the endpoints
(O11), what no selector code changes (O22), and that a record's codes make its texels (O23). -/

namespace Sys2Proof.Proofs

open Sys2Proof.Machine Sys2Proof.Laws

/-! ## The colour codes -/

/-- Settles O11: a field of an endpoint is cut out by a shift and a width (spec/30_encoding.md R75). -/
theorem endpointChannelsAreExpandedFields : Obligations.EndpointChannelsAreExpandedFields := by
  intro c
  have hred : red5 c = c.extractLsb' 11 5 := rfl
  have hgreen : green6 c = c.extractLsb' 5 6 := rfl
  have hblue : blue5 c = c.extractLsb' 0 5 := rfl
  rw [rgb565to888, hred, hgreen, hblue]

/-- The code that decodes to four-colour entry `k` makes that entry the lane's texel (spec/40_endpoint_palette.md
R105). -/
theorem exec_csel4Of (k : Nat) (i : Instr) (s : State) (h : csel4Of k = some i) :
    exec i s = .next (s.withTexel (csel (palette4 s.lane.c0 s.lane.c1) (BitVec.ofNat 2 k))) := by
  unfold csel4Of at h
  split at h <;> cases h <;> rfl

/-- The code that decodes to three-colour entry `k` makes that entry the lane's texel (spec/40_endpoint_palette.md
R106). -/
theorem exec_csel3Of (k : Nat) (i : Instr) (s : State) (h : csel3Of k = some i) :
    exec i s = .next (s.withTexel (csel (palette3 s.lane.c0 s.lane.c1) (BitVec.ofNat 2 k))) := by
  unfold csel3Of at h
  split at h <;> cases h <;> rfl

/-- Settles O17: each code makes its entry the lane's texel, which `withTexel` changes alone; the entries are exact. -/
theorem fourColourCodesComplete : Obligations.FourColourCodesComplete := by
  rintro s e0 e1 rfl rfl
  obtain ⟨_, _, hr2, hg2, hb2, ha2, hr3, hg3, hb3, ha3, _⟩ :=
    paletteEntriesAreExact (rgb565to888 s.lane.c0) (rgb565to888 s.lane.c1)
  exact ⟨exec_csel4Of 0 _ s rfl, exec_csel4Of 1 _ s rfl, ⟨_, exec_csel4Of 2 _ s rfl, hr2, hg2, hb2, ha2⟩,
    ⟨_, exec_csel4Of 3 _ s rfl, hr3, hg3, hb3, ha3⟩⟩

/-- Settles O18: each code makes its entry the lane's texel, which `withTexel` changes alone; the entries are exact. -/
theorem threeColourCodesComplete : Obligations.ThreeColourCodesComplete := by
  rintro s e0 e1 rfl rfl
  obtain ⟨_, _, _, _, _, _, _, _, _, _, _, _, hr2, hg2, hb2, ha2, _⟩ :=
    paletteEntriesAreExact (rgb565to888 s.lane.c0) (rgb565to888 s.lane.c1)
  exact ⟨exec_csel3Of 0 _ s rfl, exec_csel3Of 1 _ s rfl, ⟨_, exec_csel3Of 2 _ s rfl, hr2, hg2, hb2, ha2⟩,
    exec_csel3Of 3 _ s rfl⟩

/-! ## The frame of the selector codes -/

/-- A colour code changes the lane's texel (spec/10_state.md R23). -/
theorem exec_of_mem_colourCodes (i : Instr) (s : State) (h : i ∈ colourCodes) :
    ∃ c, exec i s = .next (s.withTexel c) := by
  obtain ⟨k, _, h4 | h3⟩ := (by decide : ∀ i ∈ colourCodes, ∃ k < 4, csel4Of k = some i ∨ csel3Of k = some i) i h
  · exact ⟨_, exec_csel4Of k i s h4⟩
  · exact ⟨_, exec_csel3Of k i s h3⟩

/-- An alpha code changes the alpha of the lane's texel (spec/10_state.md R23). -/
theorem exec_of_mem_alphaCodes (i : Instr) (s : State) (h : i ∈ alphaCodes) :
    ∃ a, exec i s = .next (s.withAlpha a) := by
  obtain ⟨k, _, h6 | h4⟩ := (by decide : ∀ i ∈ alphaCodes, ∃ k < 8, agrad6Of k = some i ∨ agrad4Of k = some i) i h
  · exact ⟨_, exec_agrad6Of k i s h6⟩
  · exact ⟨_, exec_agrad4Of k i s h4⟩

/-- Settles O22: a colour code changes the lane's texel alone, and a code for alpha its alpha alone. -/
theorem selectorCodesChangeOnlyTheTexel : Obligations.SelectorCodesChangeOnlyTheTexel := by
  intro i s t h hi
  by_cases hcolour : i ∈ colourCodes
  · obtain ⟨c, hx⟩ := exec_of_mem_colourCodes i s hcolour
    cases hx.symm.trans h
    exact ⟨rfl, rfl, rfl, rfl, rfl, rfl, rfl, rfl, rfl, fun hn => absurd hcolour hn⟩
  · have halpha : ∃ a, exec i s = .next (s.withAlpha a) := by
      rcases hi.resolve_left hcolour with ha | ⟨n, rfl⟩
      · exact exec_of_mem_alphaCodes i s ha
      · exact ⟨_, exec_aexp n s⟩
    obtain ⟨a, hx⟩ := halpha
    cases hx.symm.trans h
    exact ⟨rfl, rfl, rfl, rfl, rfl, rfl, rfl, rfl, rfl, fun _ => ⟨rfl, rfl, rfl⟩⟩

/-! ## The codes of a record, decoded and executed -/

/-- A lane that is given the code `b` in the state `s` decodes it and completes in the state `t`. -/
def LaneRuns (kind : CodeKind) (b : Byte) (s t : State) : Prop :=
  ∃ j, decode (codeCtx kind s) [b] = .ok (j, []) ∧ exec j s = .next t

/-- A lane runs what its code's value decodes to (spec/30_encoding.md R79). -/
theorem laneRuns_of_decodeValue {kind : CodeKind} {n : Nat} {k : BitVec n} {s t : State} {j : Instr} (hn : n ≤ 8)
    (hv : decodeValue (codeCtx kind s) k.toNat = .ok j) (hx : exec j s = .next t) :
    LaneRuns kind (k.setWidth 8) s t := by
  have hsize : (codeCtx kind s).size = 1 := by cases kind <;> rfl
  have hval : leNat [k.setWidth 8] = k.toNat := by simp [leNat, BitVec.toNat_setWidth_of_le hn]
  refine ⟨j, (decode_eq_ok_iff _ _ _ _).mpr ?_, hx⟩
  rw [hsize]
  exact ⟨Nat.le_refl _, hval.symm ▸ hv, rfl⟩

/-- Every colour code has an entry in either colour table, and every alpha code in either alpha table. -/
theorem csel4Of_code (k : BitVec 2) : ∃ j, csel4Of k.toNat = some j :=
  Option.isSome_iff_exists.mp ((by decide : ∀ k : BitVec 2, (csel4Of k.toNat).isSome = true) k)

theorem csel3Of_code (k : BitVec 2) : ∃ j, csel3Of k.toNat = some j :=
  Option.isSome_iff_exists.mp ((by decide : ∀ k : BitVec 2, (csel3Of k.toNat).isSome = true) k)

theorem agrad6Of_code (k : BitVec 3) : ∃ j, agrad6Of k.toNat = some j :=
  Option.isSome_iff_exists.mp ((by decide : ∀ k : BitVec 3, (agrad6Of k.toNat).isSome = true) k)

theorem agrad4Of_code (k : BitVec 3) : ∃ j, agrad4Of k.toNat = some j :=
  Option.isSome_iff_exists.mp ((by decide : ∀ k : BitVec 3, (agrad4Of k.toNat).isSome = true) k)

section LaneCodes

variable (s : State)

/-- In four-colour mode a colour code makes its four-colour entry the lane's texel. -/
theorem laneRuns_four (k : BitVec 2) (hmode : Instr.csel4_0.wellFormedIn (codeCtx .colour s) = true) :
    LaneRuns .colour (k.setWidth 8) s (s.withTexel (csel (palette4 s.lane.c0 s.lane.c1) k)) := by
  obtain ⟨j, hj⟩ := csel4Of_code k
  have hx := exec_csel4Of k.toNat j s hj
  rw [BitVec.ofNat_toNat, BitVec.setWidth_eq] at hx
  exact laneRuns_of_decodeValue (by decide) ((decodeColour_eq_ok_iff _ _ _ j).mpr (Or.inl ⟨hj, hmode⟩)) hx

/-- In three-colour mode a colour code makes its three-colour entry the lane's texel. -/
theorem laneRuns_three (k : BitVec 2) (hmode : Instr.csel3_0.wellFormedIn (codeCtx .colour s) = true) :
    LaneRuns .colour (k.setWidth 8) s (s.withTexel (csel (palette3 s.lane.c0 s.lane.c1) k)) := by
  obtain ⟨j, hj⟩ := csel3Of_code k
  have hx := exec_csel3Of k.toNat j s hj
  rw [BitVec.ofNat_toNat, BitVec.setWidth_eq] at hx
  exact laneRuns_of_decodeValue (by decide) ((decodeColour_eq_ok_iff _ _ _ j).mpr (Or.inr ⟨hj, hmode⟩)) hx

/-- In grad6 mode an alpha code makes its grad6 entry the lane's alpha. -/
theorem laneRuns_grad6 (k : BitVec 3) (hmode : Instr.agrad6_0.wellFormedIn (codeCtx .alpha s) = true) :
    LaneRuns .alpha (k.setWidth 8) s (s.withAlpha (grad6 s.lane.a0 s.lane.a1 k)) := by
  obtain ⟨j, hj⟩ := agrad6Of_code k
  have hx := exec_agrad6Of k.toNat j s hj
  rw [BitVec.ofNat_toNat, BitVec.setWidth_eq] at hx
  exact laneRuns_of_decodeValue (by decide) ((decodeAlpha_eq_ok_iff _ _ _ j).mpr (Or.inl ⟨hj, hmode⟩)) hx

/-- In grad4 mode an alpha code makes its grad4 entry the lane's alpha. -/
theorem laneRuns_grad4 (k : BitVec 3) (hmode : Instr.agrad4_0.wellFormedIn (codeCtx .alpha s) = true) :
    LaneRuns .alpha (k.setWidth 8) s (s.withAlpha (grad4 s.lane.a0 s.lane.a1 k)) := by
  obtain ⟨j, hj⟩ := agrad4Of_code k
  have hx := exec_agrad4Of k.toNat j s hj
  rw [BitVec.ofNat_toNat, BitVec.setWidth_eq] at hx
  exact laneRuns_of_decodeValue (by decide) ((decodeAlpha_eq_ok_iff _ _ _ j).mpr (Or.inr (Or.inl ⟨hj, hmode⟩))) hx

/-- Under BC1 a colour code makes the entry of the palette of the lane's endpoints, three-colour mode included, its
texel (spec/41_bc1_block.md R121). -/
theorem laneRuns_colour_bc1 (k : BitVec 2) (hf : s.run.f = .bc1) :
    LaneRuns .colour (k.setWidth 8) s (s.withTexel (csel (blockPalette s.lane.c0 s.lane.c1 true) k)) := by
  by_cases hfour : fourColour s.lane.c0 s.lane.c1 = true
  · rw [blockPalette, hfour, Bool.true_or, if_pos rfl]
    exact laneRuns_four s k (by simp [codeCtx, hf, hfour, Instr.wellFormedIn])
  · rw [Bool.not_eq_true] at hfour
    rw [blockPalette, hfour, Bool.not_true, Bool.or_false, if_neg Bool.false_ne_true]
    exact laneRuns_three s k (by simp [codeCtx, hf, hfour, Instr.wellFormedIn])

/-- Under BC2 and BC3 a colour code makes the four-colour entry the lane's texel (spec/42_bc2_block.md R143). -/
theorem laneRuns_colour_noPunch (k : BitVec 2) (hf : s.run.f = .bc2 ∨ s.run.f = .bc3) :
    LaneRuns .colour (k.setWidth 8) s (s.withTexel (csel (blockPalette s.lane.c0 s.lane.c1 false) k)) := by
  rw [blockPalette, Bool.not_false, Bool.or_true, if_pos rfl]
  exact laneRuns_four s k (by rcases hf with hf | hf <;> simp [codeCtx, hf, Instr.wellFormedIn])

/-- Under BC2 a nibble, expanded, becomes the lane's alpha (spec/42_bc2_block.md R142). -/
theorem laneRuns_alpha_bc2 (n : BitVec 4) (hf : s.run.f = .bc2) :
    LaneRuns .alpha (n.setWidth 8) s (s.withAlpha (expandNibble n)) := by
  have hmode : (Instr.aexp 0).wellFormedIn (codeCtx .alpha s) = true := by simp [codeCtx, hf, Instr.wellFormedIn]
  exact laneRuns_of_decodeValue (by decide)
    ((decodeAlpha_eq_ok_iff _ _ _ _).mpr (Or.inr (Or.inr ⟨⟨n, rfl, rfl⟩, hmode⟩))) (exec_aexp n s)

/-- Under BC3 an alpha code makes the entry of the table of the lane's endpoints its alpha (spec/43_bc3_block.md
R160). -/
theorem laneRuns_alpha_bc3 (k : BitVec 3) (hf : s.run.f = .bc3) :
    LaneRuns .alpha (k.setWidth 8) s (s.withAlpha (alphaTable s.lane.a0 s.lane.a1 k)) := by
  by_cases hsix : gradSix s.lane.a0 s.lane.a1 = true
  · rw [alphaTable, if_pos hsix]
    exact laneRuns_grad6 s k (by simp [codeCtx, hf, hsix, Instr.wellFormedIn])
  · rw [alphaTable, if_neg hsix]
    exact laneRuns_grad4 s k (by simp [codeCtx, hf, hsix, Instr.wellFormedIn])

end LaneCodes

/-- Settles O23: the colour code gives the palette's entry, and the alpha code after it changes the alpha alone. -/
theorem selectorCodesMakeTheTexels : Obligations.SelectorCodesMakeTheTexels := by
  refine ⟨?bc1, ?bc2, ?bc3⟩
  case bc1 =>
    rintro _ _ idx i s hf rfl rfl
    obtain ⟨j, hd, hx⟩ := laneRuns_colour_bc1 s (colourCode idx i) hf
    exact ⟨j, _, hd, hx, rfl⟩
  case bc2 =>
    rintro aexp _ _ idx i s hf rfl rfl
    obtain ⟨j, hd, hx⟩ := laneRuns_colour_noPunch s (colourCode idx i) (Or.inl hf)
    obtain ⟨k, hd', hx'⟩ :=
      laneRuns_alpha_bc2 (s.withTexel (colourTile s.lane.c0 s.lane.c1 idx false i)) (alphaNibble aexp i) hf
    exact ⟨j, k, _, _, hd, hx, hd', hx', rfl⟩
  case bc3 =>
    rintro _ _ aidx _ _ idx i s hf rfl rfl rfl rfl
    obtain ⟨j, hd, hx⟩ := laneRuns_colour_noPunch s (colourCode idx i) (Or.inr hf)
    obtain ⟨k, hd', hx'⟩ :=
      laneRuns_alpha_bc3 (s.withTexel (colourTile s.lane.c0 s.lane.c1 idx false i)) (alphaCode aidx i) hf
    exact ⟨j, k, _, _, hd, hx, hd', hx', rfl⟩

end Sys2Proof.Proofs
end

section
/-! PROOFS. The rest of the instructions' effects and the sequencer's: the frames of the block operations (O27) and of
START (O38), the run that START begins (O33) or leaves alone (O32), and what a step runs on `DEC`'s turn and on a lane's
(O39, O41, O42). -/

namespace Sys2Proof.Proofs

open Sys2Proof.Machine Sys2Proof.Laws

/-! ## The block operations -/

/-- What the frame of the block operations leaves unchanged from `s` to `t` (spec/44_image_decode.md R186, R191). -/
structure BlockFrame (s t : State) : Prop where
  regs : t.regs = { s.regs with status := t.regs.status }
  run : t.run = { s.run with cur := t.run.cur, blkX := t.run.blkX, blkY := t.run.blkY }
  inMem : t.inMem = s.inMem
  lane : t.lane = s.lane
  host : t.host = s.host
  others : ∀ a, (∀ n, n < 16 → ∀ addr, xlat s.run.blkX s.run.blkY n s.run.w s.run.h = some addr →
    a < addr ∨ addr + 4 ≤ a) → Memory.read t.outMem a = Memory.read s.outMem a

/-- A block step moves the cursor and the coordinates, and stores its enabled texels only. -/
theorem blockFrame_afterBlock (texel : Nat → RGBA) (s : State) : BlockFrame s (afterBlock texel s) where
  regs := rfl
  run := by simp [afterBlock, advance_eq s.run]
  inMem := rfl
  lane := rfl
  host := rfl
  others a ha := read_storeTile_other _ _ _ _ texel _ a ha

/-- What a block operation can do: a block step in BUSY, and nothing otherwise. -/
theorem blockStep_frame (texel : Nat → RGBA) (s t : State) (h : blockStep texel s = .next t) :
    BlockFrame s t ∧ (s.regs.status ≠ .busy → t = s) := by
  rcases blockStep_next texel s t h with ⟨hb, rfl⟩ | ⟨_, rfl⟩
  · exact ⟨blockFrame_afterBlock texel s, fun hn => absurd hb hn⟩
  · exact ⟨⟨rfl, rfl, rfl, rfl, rfl, fun _ _ => rfl⟩, fun _ => rfl⟩

/-- Settles O27: each of the three is the block step of its texels. -/
theorem blockOperationsFrame : Obligations.BlockOperationsFrame := by
  intro i s t h hi
  obtain ⟨texel, hblock⟩ : ∃ texel, blockStep texel s = .next t := by
    rcases hi with ⟨c0, c1, idx, rfl⟩ | ⟨aexp, c0, c1, idx, rfl⟩ | ⟨a0, a1, aidx, c0, c1, idx, rfl⟩
    · exact ⟨_, h⟩
    · exact ⟨_, h⟩
    · exact ⟨_, h⟩
  obtain ⟨hframe, hidle⟩ := blockStep_frame texel s t hblock
  exact ⟨hframe.regs, hframe.run, hframe.inMem, hframe.lane, hframe.host, hframe.others, hidle⟩

/-! ## START -/

/-- Settles O32: the first thing START looks at is `STATUS`. -/
theorem startIsIgnoredWhileBusy : Obligations.StartIsIgnoredWhileBusy :=
  fun _ hb => if_pos hb

/-- A supported format, dimensions that are not zero and a `LEN` of at least `REQ` pass START's checks
(spec/44_image_decode.md R185). -/
theorem validate_passes (f : Format) (w h l : Word) (b : Nat) (hf : f.size? = some b) (hw : w ≠ 0) (hh : h ≠ 0)
    (hl : requiredLength w h b ≤ l.toNat) : validate f w h l = .ok b := by
  simp only [validate, hf, hw, hh, or_self, if_false, if_neg (Nat.not_lt.mpr hl)]

/-- Settles O33: the configuration passes the checks, and latching it and beginning the run set the fields one by one. -/
theorem startBeginsARun : Obligations.StartBeginsARun := by
  intro s f b hs hrow hw hh hl hfit
  obtain rfl := ofTag_of_mem_formatRows _ f b hrow
  have hsize := size?_of_mem_formatRows _ _ b hrow
  exact execStart_ok s b hs (validate_passes _ _ _ _ b hsize hw hh hl) hfit

/-- Settles O38: START is ignored, takes an error or begins a run, and none of the three writes these fields. -/
theorem startFrame : Obligations.StartFrame := by
  intro s t h
  rcases execStart_next s t h with ⟨_, rfl⟩ | ⟨_, e, _, rfl⟩ | ⟨_, b, _, _, rfl⟩
  · simp
  · simp
  · simp

/-! ## The sequencer -/

/-- In BUSY, `DEC`'s turn issues what the record at the cursor decodes to (spec/44_image_decode.md R186). -/
theorem issueDec_of_decode (s : State) (i : Instr) (rest : List Byte) (hb : s.regs.status = .busy)
    (hd : decode (.record s.run.f) (fetchBytes s.inMem s.run.cur s.run.bsz) = .ok (i, rest)) :
    issueDec s = .instruction i s := by
  simp only [issueDec, if_pos hb, hd]

/-- Settles O39: with an empty agenda and with `DEC`'s event at its head it is `DEC`'s turn. -/
theorem stepRunsTheRecordAtTheCursor : Obligations.StepRunsTheRecordAtTheCursor := by
  intro s i rest hb hd
  constructor
  · intro ha
    simp only [step, issue, ha, issueDec_of_decode s i rest hb hd]
  · intro more ha
    simp only [step, issue, ha, issueDec_of_decode (s.withAgenda more) i rest hb hd]

/-- Settles O41: the lane's context does not look at the agenda. -/
theorem stepRunsTheSelectorCode : Obligations.StepRunsTheSelectorCode := by
  intro s k b more i rest ha hd
  have hissue : issueCode k b (s.withAgenda more) = .instruction i (s.withAgenda more) := by
    simp only [issueCode, codeCtx_withAgenda, hd]
  simp only [step, issue, ha, hissue]

/-- Settles O42: with an empty agenda it is `DEC`'s turn, which outside BUSY has no step. -/
theorem nothingMovesOutsideBusy : Obligations.NothingMovesOutsideBusy := by
  intro s hs ha
  have hissue : issueDec s = .nothing s := if_neg hs
  simp only [step, issue, ha, hissue]

end Sys2Proof.Proofs
end
